-- ==== Sys2Proof/Word.lean ====
section
/-!
DEFINITION. The word types of GPIO-RF: a register byte, a command word, a response word
(spec/00_scope.md R6, R8).
-/

namespace Sys2Proof

/-- A register byte, a cached element of MODE, INV or OUT, a header field (R6: register width 8). -/
abbrev Byte := BitVec 8

/-- One word of the command stream (R6: command word width 32). -/
abbrev Word := BitVec 32

/-- The response word RSP (R6: response word width 16). -/
abbrev RspWord := BitVec 16

/-- A pin-state array of 8-bit elements, element `i` for pin `i` (R21 to R23 of 10_state.md). -/
abbrev PinArray := Vector Byte 8

/-- A pin-state array of 1-bit elements: INP (R24 of 10_state.md). -/
abbrev BitArray := Vector (BitVec 1) 8

end Sys2Proof
end

