-- ==== Sys2Proof/Config.lean ====
section
/-!
DEFINITION. What is fixed for an instance of GPIO-RF (spec/00_scope.md R6, spec/10_state.md R31), the remote register
map (R40), and the free values of the bus oracle (spec/20_memory.md R63 to R65).
-/

namespace Sys2Proof

/-- The four remote registers (R40); no offset from 0x04 to 0xFF is part of the map (R46). -/
inductive RemoteReg
  | inputPort
  | outputPort
  | inversion
  | configuration
  deriving DecidableEq, Repr

/-- The offset of a remote register (R6, R40, R74). -/
def RemoteReg.offset : RemoteReg → Byte
  | .inputPort => 0x00
  | .outputPort => 0x01
  | .inversion => 0x02
  | .configuration => 0x03

/-- The candidate device addresses, the first the default (R6 `ADDR_LIST`, R74). An address is a Nat: it is only compared
for identity (spec/93_implementation_defined.md; notes/assumptions/9.md). -/
def addrList : List Nat := [0x27, 0x26, 0x25, 0x24, 0x23, 0x22, 0x21, 0x20]

/-- The default device address, `ADDR_LIST[0]` (R6, R190). -/
def defaultAddr : Nat := 0x27

/-- The parameter `P_NONBINARY_PACK` (R6, D11). -/
inductive NonbinaryPack
  | fault
  | positional
  deriving DecidableEq, Repr

/-- The configuration of an instance, fixed at construction (R6, R31). It is held in State because `exec` takes no other
argument (notes/assumptions/10.md); no command reads it as data or writes it. -/
structure Config where
  /-- `ADDR`, one of `addrList` (R6). -/
  addr : Nat := defaultAddr
  /-- `P_NONBINARY_PACK` (R6, default `fault`). -/
  nonbinaryPack : NonbinaryPack := .fault
  /-- `P_INVERTPIN_VALIDATES` (R6, default `true`). -/
  invertPinValidates : Bool := true
  /-- How many hosts drive the instance; only one is given a meaning (R182, D23). -/
  hosts : Nat := 1
  deriving DecidableEq, Repr

/-- One answer of the transport to one transaction: every draw the oracle makes (R63 to R65). A read uses `ok` and `byte`, a
write uses `ok`, a presence query uses `present` alone, since it has no failure mode (R65, D26; notes/assumptions/12.md). -/
structure BusDraw where
  /-- The transaction completes (`true`) or fails (`false`) (R63, R64). -/
  ok : Bool
  /-- The byte a completed read returns (R63). -/
  byte : Byte
  /-- The answer of a presence query, 1 = present (R65). -/
  present : BitVec 1
  deriving DecidableEq, Repr

/-- FREE VALUE. What the unconstrained oracle of R63 answers when it is asked for the `n`-th time; `none` while the
transaction has not completed (R66, R202). Nothing constrains it (notes/assumptions/3.md). -/
opaque Config.freeAnswer : Nat → Option BusDraw

end Sys2Proof
end

