-- ==== Sys2Proof/Syntax.lean ====
section
/-!
DEFINITION. The sixteen commands of GPIO-RF (spec/30_encoding.md R86), one constructor per row of spec/opcode_table.json.
-/

namespace Sys2Proof

/-- A command with its operands (R81 to R85). `pin` is the raw PIN field, read as a signed byte by the meaning (R83);
`val` is the VAL field (R84); `list` holds the elements of a per-port set command, element 0 first, so that its length is
LEN (R85). -/
inductive Instr
  | isConnected
  | beginCmd
  | setMode
  | getMode
  | setInversion
  | getInversion
  | setGpio
  | getGpio
  | pinMode (pin val : Byte)
  | pinModePort (list : List Byte)
  | invertPin (pin val : Byte)
  | invertPinPort (list : List Byte)
  | digitalWrite (pin val : Byte)
  | digitalWritePort (list : List Byte)
  | digitalRead (pin : Byte)
  | digitalReadPort
  deriving DecidableEq, Repr

end Sys2Proof
end

