-- ==== Sys2Proof/Machine/State.lean ====
section
/-!
DEFINITION. The state of GPIO-RF as plain data (spec/10_state.md R20 to R31), the fields of the agents around it (R3), the
state after reset (spec/70_reset_and_hazards.md R190), and the reasons a step can stop.
-/

namespace Sys2Proof.Machine

/-- The arrays that cache a register the controller writes: MODE, INV and OUT (R21 to R23, R72). -/
inductive CacheArray
  | mode
  | inv
  | out
  deriving DecidableEq, Repr

/-- Where the byte of an outstanding read goes (R116, R118, R120, R149, R150). -/
inductive ReadUse
  /-- GETMODE: into MODE; the byte is returned (R116). -/
  | mode
  /-- GETINVERSION: into INV; the byte is returned (R118). -/
  | inv
  /-- GETGPIO: into INP; the byte is returned (R120). -/
  | inp
  /-- DIGITALREAD: into INP; one element is returned (R149). -/
  | inpPin (pin : Fin 8)
  /-- DIGITALREADPORT: into INP; all elements are returned as a byte (R150). -/
  | inpPort
  deriving DecidableEq, Repr

/-- The one bus transaction a command can have outstanding (R26, R66), with what is done when it completes. A write can
only be one of an array's register, so INPUT_PORT cannot be written (R47). -/
inductive BusOp
  | probe
  | read (use : ReadUse)
  | write (array : CacheArray) (byte : Byte)
  deriving DecidableEq, Repr

/-- The command state machine (R26). BUS carries the outstanding transaction (notes/assumptions/11.md). -/
inductive Fsm
  | idle
  | recv
  | exec
  | bus (op : BusOp)
  | fault
  deriving DecidableEq, Repr

/-- A transaction as the transport sees it, at the configured address (R63 to R65). -/
inductive Txn
  | probe
  | read (reg : RemoteReg)
  | write (reg : RemoteReg) (byte : Byte)
  deriving DecidableEq, Repr

/-- An event of the bus history (R63 to R65). -/
inductive BusEvent
  | probe (addr : Nat) (present : BitVec 1)
  | read (addr : Nat) (reg : RemoteReg) (byte : Byte)
  | readFail (addr : Nat) (reg : RemoteReg)
  | write (addr : Nat) (reg : RemoteReg) (byte : Byte)
  | writeFail (addr : Nat) (reg : RemoteReg) (byte : Byte)
  deriving DecidableEq, Repr

/-- The reference device (R76): DEV_OUT, DEV_INV, DEV_CFG and the environment's PINLVL. -/
structure RefDevice where
  out : Byte
  inv : Byte
  cfg : Byte
  pinLvl : Byte
  deriving DecidableEq, Repr

/-- The bus transport and the device behind it (R3), as an oracle (R63; notes/assumptions/3.md). -/
inductive Transport
  /-- The unconstrained oracle of R63: the answer to the `asked`-th question is the free value `Config.freeAnswer asked`. -/
  | free (asked : Nat)
  /-- The draws still to come, in order; `none` is "not completed yet", and after the last one nothing completes (R66). -/
  | draws (answers : List (Option BusDraw))
  /-- The reference device, always present and never failing (R76). -/
  | reference (dev : RefDevice)
  deriving DecidableEq, Repr

/-- A reset the host asks for: `construct(optional address, …)` (R190). -/
structure ResetReq where
  addr : Option Nat
  deriving DecidableEq, Repr

/-- The whole state. The first ten fields after `cfg` are the controller's (R20); the last five are the agents' around it
and the spec's own notional records. -/
structure State where
  /-- Configuration, fixed at construction (R31). -/
  cfg : Config
  /-- MODE[0..7] (R21). -/
  mode : PinArray
  /-- INV[0..7] (R22). -/
  inv : PinArray
  /-- OUT[0..7] (R23). -/
  out : PinArray
  /-- INP[0..7] (R24). -/
  inp : BitArray
  /-- FSM (R26). -/
  fsm : Fsm
  /-- RSP (R27). -/
  rsp : RspWord
  /-- FAULT_CODE (R28). -/
  faultCode : Byte
  /-- HDR, the accepted header (R29). -/
  hdr : Word
  /-- LISTBUF[0..254], the payload buffer (R29). -/
  listBuf : Vector Byte 255
  /-- LISTCNT, the payload words taken so far (R29). -/
  listCnt : Byte
  /-- The words the host offers that the controller has not taken, oldest first (R60, R80). -/
  cmdIn : List Word
  /-- A reset the host asks for (R190). -/
  resetReq : Option ResetReq
  /-- The bus transport (R63 to R66). -/
  transport : Transport
  /-- The bus history, oldest first (R63 to R65, R69, R184). -/
  hist : List BusEvent
  /-- The notional command index (R30). -/
  k : Nat
  deriving DecidableEq, Repr

/-- The state right after reset (R190, R20), with the defaults of R6. HDR and LISTBUF are unspecified by the spec: the
model names 0 (DESIGN CHOICE, notes/assumptions/5.md). The environment's fields start as notes/assumptions/4.md and
notes/assumptions/6.md say. -/
def State.reset : State where
  cfg := { addr := defaultAddr, nonbinaryPack := .fault, invertPinValidates := true, hosts := 1 }
  mode := Vector.replicate 8 0
  inv := Vector.replicate 8 0
  out := Vector.replicate 8 0
  inp := Vector.replicate 8 0
  fsm := .idle
  rsp := 0x0000
  faultCode := 0x00
  hdr := 0
  listBuf := Vector.replicate 255 0
  listCnt := 0
  cmdIn := []
  resetReq := none
  transport := .free 0
  hist := []
  k := 0

/-- Why a step stops with no next state. The faults of R172 are not here: taking one is a next state (R171). -/
inductive Fault
  /-- Raised by `launch` (Machine/Fetch.lean) when FSM is EXEC, or RECV with its payload complete, while HDR holds no legal
  header. Safe: the spec gives no such state (HDR holds an accepted header then, R26, R29), and no run reaches it. -/
  | headerNotAccepted
  deriving DecidableEq, Repr

/-- What the model refuses to give a meaning. -/
inductive Refusal
  /-- Raised by an arm of `exec` for a command without a meaning; safe. No arm does. -/
  | notModelled (mnemonic : String)
  /-- Raised by `fetch` when the configured address, or the address a reset supplies, is not in ADDR_LIST. Safe: the spec
  says a model refuses it (R6, R190, D19). -/
  | addrNotListed
  /-- Raised by `fetch` when not exactly one host drives the instance. Safe: the spec says a model refuses it (R182). -/
  | notOneHost
  /-- Raised by `fetch` when a reset is asked for while FSM is BUS. Safe: the spec says a model refuses it (R192). -/
  | resetDuringBus
  deriving DecidableEq, Repr

end Sys2Proof.Machine
end

