-- ==== Sys2Proof/Machine/Bus.lean ====
section
/-!
DEFINITION. The bus: which register each array mirrors (spec/20_memory.md R67, R72), the transactions, and the answers of
the transport (R63 to R66), the reference device among them (R76).
-/

namespace Sys2Proof.Machine

/-- The remote register an array is flushed to (R72). -/
def CacheArray.reg : CacheArray → RemoteReg
  | .mode => .configuration
  | .inv => .inversion
  | .out => .outputPort

/-- The remote register a read is made of (R47, R67). -/
def ReadUse.reg : ReadUse → RemoteReg
  | .mode => .configuration
  | .inv => .inversion
  | .inp => .inputPort
  | .inpPin _ => .inputPort
  | .inpPort => .inputPort

/-- An outstanding transaction as the transport sees it (R63 to R65). -/
def BusOp.txn : BusOp → Txn
  | .probe => .probe
  | .read use => .read use.reg
  | .write array byte => .write array.reg byte

/-- What a read of the reference device returns (R76). -/
def RefDevice.readReg (dev : RefDevice) : RemoteReg → Byte
  | .inputPort => dev.pinLvl ^^^ dev.inv
  | .outputPort => dev.out
  | .inversion => dev.inv
  | .configuration => dev.cfg

/-- What a write does to the reference device (R76). R76 says nothing of a write to INPUT_PORT, and the controller makes
none (R47): it changes nothing here (notes/assumptions/17.md). -/
def RefDevice.writeReg (dev : RefDevice) (reg : RemoteReg) (v : Byte) : RefDevice :=
  match reg with
  | .inputPort => dev
  | .outputPort => { dev with out := v }
  | .inversion => { dev with inv := v }
  | .configuration => { dev with cfg := v }

/-- The answer of the reference device and the device after it: always present, never failing (R76). -/
def RefDevice.answer (dev : RefDevice) : Txn → BusDraw × RefDevice
  | .probe => ({ ok := true, byte := 0, present := 1 }, dev)
  | .read reg => ({ ok := true, byte := dev.readReg reg, present := 1 }, dev)
  | .write reg v => ({ ok := true, byte := 0, present := 1 }, dev.writeReg reg v)

/-- The transport is asked once for the outcome of a transaction: its answer, none while the transaction has not completed
(R66), and the transport after it. -/
def Transport.ask (t : Transport) (x : Txn) : Option BusDraw × Transport :=
  match t with
  | .free n => (Config.freeAnswer n, .free (n + 1))
  | .draws [] => (none, .draws [])
  | .draws (a :: rest) => (a, .draws rest)
  | .reference dev => (some (dev.answer x).1, .reference (dev.answer x).2)

end Sys2Proof.Machine
end

