-- ==== Sys2Proof/Machine/Flags.lean ====
section
/-!
DEFINITION. The response word RSP and its flags VALID and FAULT (spec/10_state.md R27, R32; spec/30_encoding.md R90).
-/

namespace Sys2Proof.Machine

/-- RSP of a command that returns no value (R90). -/
def rspNone : RspWord := 0x0000

/-- RSP of a command that returns the value `d` (R90). -/
def rspValue (d : Byte) : RspWord := 0x0100 ||| d.setWidth 16

/-- RSP of a command that ended in the fault with code `c` (R90, R171). -/
def rspFault (c : Byte) : RspWord := 0x0200 ||| c.setWidth 16

/-- What `respond(valid, data)` puts into RSP (R9, R27, R90). -/
def rspOf (valid : Bool) (data : Byte) : RspWord := if valid then rspValue data else rspNone

/-- RSP.DATA, bits 7:0 (R27). -/
def rspData (r : RspWord) : Byte := r.extractLsb' 0 8

/-- RSP.VALID, bit 8 (R27, R32). -/
def rspValid (r : RspWord) : Bool := r.getLsbD 8

/-- RSP.FAULT, bit 9 (R27, R32). -/
def rspFaulted (r : RspWord) : Bool := r.getLsbD 9

/-- A Boolean result as a data byte: 0x00 or 0x01 (R90). -/
def boolData (b : BitVec 1) : Byte := b.setWidth 8

end Sys2Proof.Machine
end

