-- ==== Sys2Proof/Machine/Operands.lean ====
section
/-!
DEFINITION. The operand forms and their validation (spec/30_encoding.md R83 to R85, spec/42_pin_api.md R140 to R142).
-/

namespace Sys2Proof.Machine

/-- `pin_ok`: 0 <= pin and pin <= 7 on the signed value of the PIN field (R83, R140). -/
def pinOk (pin : Byte) : Bool := decide (0 ≤ pin.toInt) && decide (pin.toInt ≤ 7)

/-- The element a valid pin operand selects, none for an invalid one (R60, R140). A valid pin's signed value is its unsigned
one. -/
def pinIndex (pin : Byte) : Option (Fin 8) := if pinOk pin then some (Fin.ofNat 8 pin.toNat) else none

/-- `binary(val)`: the value is 0 or 1 (R141). -/
def binary (val : Byte) : Bool := val == 0 || val == 1

/-- A list is valid when it has exactly 8 elements; its values are not looked at (R142). -/
def listOk (list : List Byte) : Bool := list.length == 8

/-- The array whose element `i` is list element `i` (R144, R146, R148). -/
def arrayOfList (list : List Byte) : PinArray := Vector.ofFn fun i : Fin 8 => list.getD i.val 0

end Sys2Proof.Machine
end

