-- ==== Sys2Proof/Machine/Pack.lean ====
section
/-!
DEFINITION. The pack and unpack engine (spec/41_register_primitives.md R110 to R114, R122) and the fault codes
(spec/60_exceptions.md R172).
-/

namespace Sys2Proof.Machine

/-- The faults a command can raise (R172). -/
inductive FaultCause
  | illegalCommand
  | nonbinaryPack
  | packOverflow
  | busReadError
  | busWriteError
  deriving DecidableEq, Repr

/-- The code of a fault (R172). -/
def FaultCause.code : FaultCause → Byte
  | .illegalCommand => 0x01
  | .nonbinaryPack => 0x02
  | .packOverflow => 0x03
  | .busReadError => 0x04
  | .busWriteError => 0x05

/-- Some element is above 1 (R111). -/
def hasNonbinary (a : PinArray) : Bool := a.toList.any fun e => decide (1 < e.toNat)

/-- The OR over i of `zext_n(A[i]) << i`, in `n` bits (R111: 8 bits under `fault`, 16 bits under `positional`). -/
def orLanes (n : Nat) (a : PinArray) : BitVec n :=
  (List.finRange 8).foldl (fun acc i => acc ||| (a[i].setWidth n <<< i.val)) 0

/-- `PACK(A)`: the packed byte, or the fault it raises (R111). -/
def pack (policy : NonbinaryPack) (a : PinArray) : Except FaultCause Byte :=
  match policy with
  | .fault => if hasNonbinary a then .error .nonbinaryPack else .ok (orLanes 8 a)
  | .positional =>
    let p := orLanes 16 a
    if p.extractLsb' 8 8 != 0 then .error .packOverflow else .ok (p.extractLsb' 0 8)

/-- `UNPACK(b)`: element i is `(b >> i) & 1` (R113). -/
def unpack (b : Byte) : PinArray := Vector.ofFn fun i : Fin 8 => (b >>> i.val) &&& 1

/-- UNPACK into the 1-bit elements of INP (R24, R113). -/
def unpackBits (b : Byte) : BitArray := Vector.ofFn fun i : Fin 8 => (unpack b)[i].setWidth 1

/-- The OR over i of `INP[i] << i`, the byte DIGITALREADPORT returns (R150). -/
def orBits (a : BitArray) : Byte :=
  (List.finRange 8).foldl (fun acc i => acc ||| (a[i].setWidth 8 <<< i.val)) 0

end Sys2Proof.Machine
end

