-- ==== Sys2Proof/Machine/Ops.lean ====
section
/-!
DEFINITION. The named operations over the state: how a command ends (respond, no-op, fault), the cache arrays, the bus
transactions, taking a fault and the reset that leaves it.
-/

namespace Sys2Proof.Machine

/-! ### How a command ends -/

/-- `respond(valid, data)`: RSP is set, FSM returns to IDLE, and the command has completed (R9, R26, R27, R30). -/
def State.respond (s : State) (valid : Bool) (data : Byte) : State :=
  { s with rsp := rspOf valid data, fsm := .idle, k := s.k + 1 }

/-- `noop()`: the command ends with no state change and no transaction (R9, R170). -/
def State.noop (s : State) : State := s.respond false 0x00

/-- Taking a fault: FAULT_CODE, then RSP, then FSM, as one step; what the command wrote before stays (R171). No pc or
status is saved, and there is no handler. -/
def State.raiseFault (s : State) (cause : FaultCause) : State :=
  { s with faultCode := cause.code, rsp := rspFault cause.code, fsm := .fault }

/-- Reset, the only way out of FAULT (R175): the reset value in every field of the controller and the address supplied, or
the default one (R190). It makes no transaction (R191); the other parameters, the hosts, the words still offered, the
transport and the history are not the controller's to change (notes/assumptions/7.md). -/
def State.construct (s : State) (addr : Option Nat) : State :=
  { State.reset with
    cfg := { s.cfg with addr := addr.getD defaultAddr }
    cmdIn := s.cmdIn
    transport := s.transport
    hist := s.hist }

/-! ### The cache arrays -/

/-- The contents of a cache array. -/
def State.cached (s : State) : CacheArray → PinArray
  | .mode => s.mode
  | .inv => s.inv
  | .out => s.out

/-- A cache array is replaced. -/
def State.setCached (s : State) (a : CacheArray) (v : PinArray) : State :=
  match a with
  | .mode => { s with mode := v }
  | .inv => { s with inv := v }
  | .out => { s with out := v }

/-- INP is replaced by the unpacked byte, all eight elements (R113, R120). -/
def State.refreshInp (s : State) (b : Byte) : State := { s with inp := unpackBits b }

/-! ### The bus -/

/-- An event is appended to the bus history (R63 to R65). -/
def State.logEvent (s : State) (e : BusEvent) : State := { s with hist := s.hist ++ [e] }

/-- What a completed read does: the refresh, then the response (R116, R118, R120, R149, R150). -/
def State.finishRead (s : State) (use : ReadUse) (b : Byte) : State :=
  match use with
  | .mode => (s.setCached .mode (unpack b)).respond true b
  | .inv => (s.setCached .inv (unpack b)).respond true b
  | .inp => (s.refreshInp b).respond true b
  | .inpPin pin => (s.refreshInp b).respond true (boolData (unpackBits b)[pin])
  | .inpPort => (s.refreshInp b).respond true (orBits (unpackBits b))

/-- The transport has answered the outstanding transaction: the event is recorded, and the command ends with its response
or with the fault of a failed transfer (R63 to R65, R173 steps 6 and 7). -/
def State.finish (s : State) (op : BusOp) (d : BusDraw) : State :=
  match op with
  | .probe => (s.logEvent (.probe s.cfg.addr d.present)).respond true (boolData d.present)
  | .read use =>
    if d.ok then (s.logEvent (.read s.cfg.addr use.reg d.byte)).finishRead use d.byte
    else (s.logEvent (.readFail s.cfg.addr use.reg)).raiseFault .busReadError
  | .write array byte =>
    if d.ok then (s.logEvent (.write s.cfg.addr array.reg byte)).respond false 0x00
    else (s.logEvent (.writeFail s.cfg.addr array.reg byte)).raiseFault .busWriteError

/-- The transport is asked for the outcome of `op`: FSM stays in BUS until there is one (R66). -/
def State.awaitBus (s : State) (op : BusOp) : State :=
  match s.transport.ask op.txn with
  | (none, t) => { s with transport := t, fsm := .bus op }
  | (some d, t) => ({ s with transport := t } : State).finish op d

/-- A command issues its one transaction: EXEC to BUS (R26, R66). -/
def State.issue (s : State) (op : BusOp) : State := ({ s with fsm := .bus op } : State).awaitBus op

/-- A flush: PACK the whole array, then one write of the byte to its register (R71, R72, R115, R151). A fault of PACK comes
before any bus traffic (R111, R173). -/
def State.flush (s : State) (a : CacheArray) : State :=
  match pack s.cfg.nonbinaryPack (s.cached a) with
  | .error cause => s.raiseFault cause
  | .ok b => s.issue (.write a b)

/-! ### The set commands of the per-pin and per-port families -/

/-- A per-pin set command: no-op unless the value check `valOk` and the pin check hold; else one element is stored and the
whole array flushed (R140, R143, R145, R147, R151, R173). -/
def State.setPin (s : State) (a : CacheArray) (pin val : Byte) (valOk : Bool) : State :=
  match pinIndex pin with
  | some i => if valOk then (s.setCached a ((s.cached a).set i.val val)).flush a else s.noop
  | none => s.noop

/-- A per-port set command: no-op unless the list has 8 elements; else the array is replaced and flushed (R142, R144, R146,
R148). -/
def State.setPort (s : State) (a : CacheArray) (list : List Byte) : State :=
  if listOk list then (s.setCached a (arrayOfList list)).flush a else s.noop

end Sys2Proof.Machine
end

