-- ==== Sys2Proof/Machine/Connectivity.lean ====
section
/-!
DEFINITION. The connectivity commands (spec/40_connectivity.md). A meaning is what a command does once its header and
payload are complete (FSM = EXEC, R26; notes/assumptions/25.md).
-/

namespace Sys2Proof.Machine

/-- ISCONNECTED (R100). -/
def execIsConnected (s : State) : Host.Outcome State Fault Refusal := .next (s.issue .probe)

/-- BEGIN: the same as ISCONNECTED, with no register initialization (R101). -/
def execBegin (s : State) : Host.Outcome State Fault Refusal := .next (s.issue .probe)

end Sys2Proof.Machine
end

