-- ==== Sys2Proof/Machine/Input.lean ====
section
/-!
DEFINITION. The input commands (spec/42_pin_api.md R149, R150).
-/

namespace Sys2Proof.Machine

/-- DIGITALREAD: an invalid pin gives the no-value response and no read (R149, R170). -/
def execDigitalRead (pin : Byte) (s : State) : Host.Outcome State Fault Refusal :=
  .next (match pinIndex pin with
    | some i => s.issue (.read (.inpPin i))
    | none => s.noop)

/-- DIGITALREADPORT (R150). -/
def execDigitalReadPort (s : State) : Host.Outcome State Fault Refusal := .next (s.issue (.read .inpPort))

end Sys2Proof.Machine
end

