-- ==== Sys2Proof/Machine/Inversion.lean ====
section
/-!
DEFINITION. The inversion commands (spec/42_pin_api.md R145, R146).
-/

namespace Sys2Proof.Machine

/-- INVERTPIN: the value is checked only when `P_INVERTPIN_VALIDATES` is true (R141, R145, D12). -/
def execInvertPin (pin val : Byte) (s : State) : Host.Outcome State Fault Refusal :=
  .next (s.setPin .inv pin val (!s.cfg.invertPinValidates || binary val))

/-- INVERTPINPORT (R146). -/
def execInvertPinPort (list : List Byte) (s : State) : Host.Outcome State Fault Refusal := .next (s.setPort .inv list)

end Sys2Proof.Machine
end

