-- ==== Sys2Proof/Machine/Mode.lean ====
section
/-!
DEFINITION. The mode commands (spec/42_pin_api.md R143, R144).
-/

namespace Sys2Proof.Machine

/-- PINMODE: the value must be binary and the pin valid (R143). -/
def execPinMode (pin val : Byte) (s : State) : Host.Outcome State Fault Refusal :=
  .next (s.setPin .mode pin val (binary val))

/-- PINMODEPORT (R144). -/
def execPinModePort (list : List Byte) (s : State) : Host.Outcome State Fault Refusal := .next (s.setPort .mode list)

end Sys2Proof.Machine
end

