-- ==== Sys2Proof/Machine/Output.lean ====
section
/-!
DEFINITION. The output commands (spec/42_pin_api.md R147, R148).
-/

namespace Sys2Proof.Machine

/-- DIGITALWRITE: only the pin is checked; any value is stored (R141, R147). -/
def execDigitalWrite (pin val : Byte) (s : State) : Host.Outcome State Fault Refusal :=
  .next (s.setPin .out pin val true)

/-- DIGITALWRITEPORT (R148). -/
def execDigitalWritePort (list : List Byte) (s : State) : Host.Outcome State Fault Refusal := .next (s.setPort .out list)

end Sys2Proof.Machine
end

