-- ==== Sys2Proof/Machine/Registers.lean ====
section
/-!
DEFINITION. The register-level primitives (spec/41_register_primitives.md R115 to R120).
-/

namespace Sys2Proof.Machine

/-- SETMODE (R115). -/
def execSetMode (s : State) : Host.Outcome State Fault Refusal := .next (s.flush .mode)

/-- GETMODE (R116). -/
def execGetMode (s : State) : Host.Outcome State Fault Refusal := .next (s.issue (.read .mode))

/-- SETINVERSION (R117). -/
def execSetInversion (s : State) : Host.Outcome State Fault Refusal := .next (s.flush .inv)

/-- GETINVERSION (R118). -/
def execGetInversion (s : State) : Host.Outcome State Fault Refusal := .next (s.issue (.read .inv))

/-- SETGPIO (R119). -/
def execSetGpio (s : State) : Host.Outcome State Fault Refusal := .next (s.flush .out)

/-- GETGPIO (R120). -/
def execGetGpio (s : State) : Host.Outcome State Fault Refusal := .next (s.issue (.read .inp))

end Sys2Proof.Machine
end

