-- ==== Sys2Proof/Machine/Dispatch.lean ====
section
/-!
DEFINITION. One arm per command: the direct call of its meaning.
-/

namespace Sys2Proof.Machine

def exec (i : Instr) (s : State) : Host.Outcome State Fault Refusal :=
  match i with
  | .isConnected => Sys2Proof.Machine.execIsConnected s
  | .beginCmd => Sys2Proof.Machine.execBegin s
  | .setMode => Sys2Proof.Machine.execSetMode s
  | .getMode => Sys2Proof.Machine.execGetMode s
  | .setInversion => Sys2Proof.Machine.execSetInversion s
  | .getInversion => Sys2Proof.Machine.execGetInversion s
  | .setGpio => Sys2Proof.Machine.execSetGpio s
  | .getGpio => Sys2Proof.Machine.execGetGpio s
  | .pinMode pin val => Sys2Proof.Machine.execPinMode pin val s
  | .pinModePort list => Sys2Proof.Machine.execPinModePort list s
  | .invertPin pin val => Sys2Proof.Machine.execInvertPin pin val s
  | .invertPinPort list => Sys2Proof.Machine.execInvertPinPort list s
  | .digitalWrite pin val => Sys2Proof.Machine.execDigitalWrite pin val s
  | .digitalWritePort list => Sys2Proof.Machine.execDigitalWritePort list s
  | .digitalRead pin => Sys2Proof.Machine.execDigitalRead pin s
  | .digitalReadPort => Sys2Proof.Machine.execDigitalReadPort s

end Sys2Proof.Machine
end

