-- ==== Sys2Proof/WellFormed.lean ====
section
/-!
DEFINITION. Which commands have an encoding: a list of at most 255 elements (spec/30_encoding.md R85, R91).
-/

namespace Sys2Proof

/-- A list fits its LEN field (R85: "0 to 255"; R91: the assembler refuses a longer one). -/
def listFits (list : List Byte) : Bool := decide (list.length ≤ 255)

/-- The command can be encoded. Pins and values fit their 8-bit fields by their type (R83, R84). -/
def Instr.wellFormed : Instr → Bool
  | .isConnected => true
  | .beginCmd => true
  | .setMode => true
  | .getMode => true
  | .setInversion => true
  | .getInversion => true
  | .setGpio => true
  | .getGpio => true
  | .pinMode _ _ => true
  | .pinModePort list => listFits list
  | .invertPin _ _ => true
  | .invertPinPort list => listFits list
  | .digitalWrite _ _ => true
  | .digitalWritePort list => listFits list
  | .digitalRead _ => true
  | .digitalReadPort => true

end Sys2Proof
end

