-- ==== Sys2Proof/Decode.lean ====
section
/-!
DEFINITION. The decoder of the command stream, total on any words, and after it the encoder (spec/30_encoding.md R81 to
R89).
-/

namespace Sys2Proof

/-- The header formats of R82. -/
inductive Format
  | n
  | p
  | pv
  | l
  deriving DecidableEq, Repr

/-- The opcodes of R86, in its order. -/
inductive Opcode
  | isConnected | beginCmd | setMode | getMode | setInversion | getInversion | setGpio | getGpio
  | pinMode | pinModePort | invertPin | invertPinPort | digitalWrite | digitalWritePort | digitalRead | digitalReadPort
  deriving DecidableEq, Repr

/-- Why the decoder refuses words. The first three and `payloadHighBits` are the illegal words of R87; the other two say
that the words of a whole command are not there. -/
inductive DecodeError
  /-- RSV is not zero (R87). -/
  | reservedBits
  /-- OP is 0x00 or 0x11 to 0x1F (R87). -/
  | reservedOpcode
  /-- A field that the format does not use is not zero (R82, R87). -/
  | unusedField
  /-- A payload word with W[31:8] not zero (R85, R87). -/
  | payloadHighBits
  /-- No header word is there. -/
  | noWord
  /-- Fewer payload words than LEN are there (R85). -/
  | payloadMissing
  deriving DecidableEq, Repr

/-- All opcodes, in the order of R86. -/
def Opcode.all : List Opcode :=
  [.isConnected, .beginCmd, .setMode, .getMode, .setInversion, .getInversion, .setGpio, .getGpio,
   .pinMode, .pinModePort, .invertPin, .invertPinPort, .digitalWrite, .digitalWritePort, .digitalRead, .digitalReadPort]

/-- The OP field of an opcode (R86). -/
def Opcode.code : Opcode → BitVec 5
  | .isConnected => 0x01
  | .beginCmd => 0x02
  | .setMode => 0x03
  | .getMode => 0x04
  | .setInversion => 0x05
  | .getInversion => 0x06
  | .setGpio => 0x07
  | .getGpio => 0x08
  | .pinMode => 0x09
  | .pinModePort => 0x0A
  | .invertPin => 0x0B
  | .invertPinPort => 0x0C
  | .digitalWrite => 0x0D
  | .digitalWritePort => 0x0E
  | .digitalRead => 0x0F
  | .digitalReadPort => 0x10

/-- The opcode an OP field selects, none for a reserved one (R86). -/
def Opcode.ofCode (c : BitVec 5) : Option Opcode := Opcode.all.find? fun o => o.code == c

/-- The format of an opcode (R82, R86). -/
def Opcode.format : Opcode → Format
  | .isConnected => .n
  | .beginCmd => .n
  | .setMode => .n
  | .getMode => .n
  | .setInversion => .n
  | .getInversion => .n
  | .setGpio => .n
  | .getGpio => .n
  | .pinMode => .pv
  | .pinModePort => .l
  | .invertPin => .pv
  | .invertPinPort => .l
  | .digitalWrite => .pv
  | .digitalWritePort => .l
  | .digitalRead => .p
  | .digitalReadPort => .n

/-- H[4:0], the opcode field (R81). -/
def opField (h : Word) : BitVec 5 := h.extractLsb' 0 5
/-- H[7:5], the reserved field (R81). -/
def rsvField (h : Word) : BitVec 3 := h.extractLsb' 5 3
/-- H[15:8], the pin operand (R81, R83). -/
def pinField (h : Word) : Byte := h.extractLsb' 8 8
/-- H[23:16], the value operand (R81, R84). -/
def valField (h : Word) : Byte := h.extractLsb' 16 8
/-- H[31:24], the list length (R81, R85). -/
def lenField (h : Word) : Byte := h.extractLsb' 24 8

/-- The bits of a header that its format does not use are zero: the four tests of R89. -/
def unusedZero (f : Format) (h : Word) : Bool :=
  match f with
  | .n => h.extractLsb' 5 27 == 0
  | .p => h.extractLsb' 16 16 == 0
  | .pv => h.extractLsb' 24 8 == 0
  | .l => h.extractLsb' 5 19 == 0

/-- The decode function of R89 on a header word. -/
def decodeHeader (h : Word) : Except DecodeError Opcode :=
  if rsvField h != 0 then .error .reservedBits
  else
    match Opcode.ofCode (opField h) with
    | none => .error .reservedOpcode
    | some op => if unusedZero op.format h then .ok op else .error .unusedField

/-- How many payload words follow a header: LEN in format L, else none (R85, R89). -/
def payloadLen (h : Word) : Nat :=
  match decodeHeader h with
  | .ok op => if op.format = .l then (lenField h).toNat else 0
  | .error _ => 0

/-- A payload word is legal: W[31:8] is zero (R85, R87). -/
def payloadLegal (w : Word) : Bool := w.extractLsb' 8 24 == 0

/-- The list element a payload word carries, W[7:0] (R85). -/
def payloadElement (w : Word) : Byte := w.extractLsb' 0 8

/-- The first `n` words as legal payload words: their elements and the words after them (R85). -/
def takePayload : Nat → List Word → Except DecodeError (List Byte × List Word)
  | 0, ws => .ok ([], ws)
  | _ + 1, [] => .error .payloadMissing
  | n + 1, w :: ws =>
    if payloadLegal w then
      match takePayload n ws with
      | .ok (es, rest) => .ok (payloadElement w :: es, rest)
      | .error e => .error e
    else .error .payloadHighBits

/-- The command of an opcode with its operands (R83 to R86). -/
def Opcode.command (op : Opcode) (pin val : Byte) (list : List Byte) : Instr :=
  match op with
  | .isConnected => .isConnected
  | .beginCmd => .beginCmd
  | .setMode => .setMode
  | .getMode => .getMode
  | .setInversion => .setInversion
  | .getInversion => .getInversion
  | .setGpio => .setGpio
  | .getGpio => .getGpio
  | .pinMode => .pinMode pin val
  | .pinModePort => .pinModePort list
  | .invertPin => .invertPin pin val
  | .invertPinPort => .invertPinPort list
  | .digitalWrite => .digitalWrite pin val
  | .digitalWritePort => .digitalWritePort list
  | .digitalRead => .digitalRead pin
  | .digitalReadPort => .digitalReadPort

/-- The command of a header and the list elements that came with it (R89). -/
def decodeCommand (h : Word) (list : List Byte) : Except DecodeError Instr :=
  match decodeHeader h with
  | .ok op => .ok (op.command (pinField h) (valField h) list)
  | .error e => .error e

/-- The decoder: the first command of a stream of words and the words after it (R80, R85, R89). -/
def decode : List Word → Except DecodeError (Instr × List Word)
  | [] => .error .noWord
  | h :: ws =>
    match decodeHeader h with
    | .error e => .error e
    | .ok op =>
      match takePayload (payloadLen h) ws with
      | .error e => .error e
      | .ok (list, rest) => .ok (op.command (pinField h) (valField h) list, rest)

/-! The encoder, written from the same tables. -/

/-- The opcode of a command (R86). -/
def Instr.opcode : Instr → Opcode
  | .isConnected => .isConnected
  | .beginCmd => .beginCmd
  | .setMode => .setMode
  | .getMode => .getMode
  | .setInversion => .setInversion
  | .getInversion => .getInversion
  | .setGpio => .setGpio
  | .getGpio => .getGpio
  | .pinMode _ _ => .pinMode
  | .pinModePort _ => .pinModePort
  | .invertPin _ _ => .invertPin
  | .invertPinPort _ => .invertPinPort
  | .digitalWrite _ _ => .digitalWrite
  | .digitalWritePort _ => .digitalWritePort
  | .digitalRead _ => .digitalRead
  | .digitalReadPort => .digitalReadPort

/-- The PIN field of a command, zero where its format does not use it (R82, R83). -/
def Instr.pinOperand : Instr → Byte
  | .pinMode pin _ => pin
  | .invertPin pin _ => pin
  | .digitalWrite pin _ => pin
  | .digitalRead pin => pin
  | .isConnected | .beginCmd | .setMode | .getMode | .setInversion | .getInversion | .setGpio | .getGpio
  | .pinModePort _ | .invertPinPort _ | .digitalWritePort _ | .digitalReadPort => 0

/-- The VAL field of a command, zero where its format does not use it (R82, R84). -/
def Instr.valOperand : Instr → Byte
  | .pinMode _ val => val
  | .invertPin _ val => val
  | .digitalWrite _ val => val
  | .isConnected | .beginCmd | .setMode | .getMode | .setInversion | .getInversion | .setGpio | .getGpio
  | .pinModePort _ | .invertPinPort _ | .digitalWritePort _ | .digitalRead _ | .digitalReadPort => 0

/-- The list elements of a command, none where its format has no list (R82, R85). -/
def Instr.listOperand : Instr → List Byte
  | .pinModePort list => list
  | .invertPinPort list => list
  | .digitalWritePort list => list
  | .isConnected | .beginCmd | .setMode | .getMode | .setInversion | .getInversion | .setGpio | .getGpio
  | .pinMode _ _ | .invertPin _ _ | .digitalWrite _ _ | .digitalRead _ | .digitalReadPort => []

/-- A header word from its fields, by shift and OR (R8, R81). -/
def headerWord (op : BitVec 5) (pin val len : Byte) : Word :=
  op.setWidth 32 ||| (pin.setWidth 32 <<< 8) ||| (val.setWidth 32 <<< 16) ||| (len.setWidth 32 <<< 24)

/-- The header of a command (R81, R82, R86). -/
def Instr.header (i : Instr) : Word :=
  headerWord i.opcode.code i.pinOperand i.valOperand (BitVec.ofNat 8 i.listOperand.length)

/-- The payload word of a list element (R85). -/
def payloadWord (e : Byte) : Word := e.setWidth 32

/-- The words of a command: its header, then one payload word per list element (R85). -/
def encode (i : Instr) : List Word := i.header :: i.listOperand.map payloadWord

/-! What the host asks of the decoder. -/

/-- The words of a command whose bits are `w`: bit 0 the least significant bit of the header, later words' bits counting on
from it, and every bit from `nbits` on zero; a per-port header is followed by its LEN payload words. -/
def tableWords (nbits w : Nat) : List Word :=
  let bits := w % 2 ^ nbits
  let h : Word := BitVec.ofNat 32 bits
  h :: (List.range (payloadLen h)).map fun j => BitVec.ofNat 32 (bits / 2 ^ (32 * (j + 1)))

/-- The command the decoder reads from the bits `w`, none where it refuses them. -/
def decodeTableWord (nbits w : Nat) : Option Instr :=
  match decode (tableWords nbits w) with
  | .ok (i, []) => some i
  | .ok (_, _ :: _) => none
  | .error _ => none

end Sys2Proof
end

