-- ==== Sys2Proof/Machine/Fetch.lean ====
section
/-!
DEFINITION. What the controller does before a command's meaning runs: the refusals of a configuration (spec/00_scope.md R6,
spec/60_exceptions.md R182), a reset (spec/70_reset_and_hazards.md R190 to R192), and taking words from the command stream
(spec/30_encoding.md R80, spec/10_state.md R26, R29).
-/

namespace Sys2Proof.Machine

/-- What taking words leads to: a complete command to run in the given state, or the outcome of a step that runs none. -/
inductive Fetched
  | run (i : Instr) (s : State)
  | done (o : Host.Outcome State Fault Refusal)

/-- Why a configuration has no meaning, none for a legal one (R6, R182). -/
def configRefusal (c : Config) : Option Refusal :=
  if c.hosts ≠ 1 then some .notOneHost
  else if c.addr ∉ addrList then some .addrNotListed
  else none

/-- A reset that the host asks for (R190): refused in BUS (R192) and for an address outside ADDR_LIST (R6, D19). -/
def serviceReset (req : ResetReq) (s : State) : Host.Outcome State Fault Refusal :=
  match s.fsm with
  | .bus _ => .refused .resetDuringBus
  | .idle | .recv | .exec | .fault =>
    if req.addr.getD defaultAddr ∈ addrList then .next (s.construct req.addr) else .refused .addrNotListed

/-- Entry `n` of LISTBUF is written; there is no entry 255 (R29). -/
def storeEntry (buf : Vector Byte 255) (n : Byte) (e : Byte) : Vector Byte 255 :=
  if h : n.toNat < 255 then buf.set n.toNat e h else buf

/-- A legal payload word is taken: its element goes into LISTBUF[LISTCNT], and LISTCNT is incremented (R29, R85). -/
def State.takeWord (s : State) (w : Word) (rest : List Word) : State :=
  { s with
    cmdIn := rest
    listBuf := storeEntry s.listBuf s.listCnt (payloadElement w)
    listCnt := s.listCnt + 1 }

/-- The list elements the latched header has received: LISTBUF[0..LEN-1] (R29, R85). -/
def State.received (s : State) : List Byte := s.listBuf.toList.take (payloadLen s.hdr)

/-- The header and any payload are complete: FSM goes to EXEC and the command runs (R26). -/
def launch (s : State) : Fetched :=
  match decodeCommand s.hdr s.received with
  | .ok i => .run i { s with fsm := .exec }
  | .error _ => .done (.fault .headerNotAccepted)

/-- RECV: payload words are taken in order until LISTCNT reaches HDR.LEN; the first illegal one raises ILLEGAL_COMMAND as
soon as it is taken (R26, R80, R87, R173); with no further word the controller stays in RECV. -/
def receive : List Word → State → Fetched
  | [], s => if s.listCnt.toNat < (lenField s.hdr).toNat then .done (.next s) else launch s
  | w :: rest, s =>
    if s.listCnt.toNat < (lenField s.hdr).toNat then
      if payloadLegal w then receive rest (s.takeWord w rest)
      else .done (.next ({ s with cmdIn := rest }.raiseFault .illegalCommand))
    else launch s

/-- IDLE: a header is taken. An illegal one raises ILLEGAL_COMMAND (R87); a per-port header clears LISTCNT and, with
LEN > 0, goes on to its payload (R26, R29). HDR latches accepted headers only (R29). -/
def takeHeader (h : Word) (rest : List Word) (s : State) : Fetched :=
  match decodeHeader h with
  | .error _ => .done (.next ({ s with cmdIn := rest }.raiseFault .illegalCommand))
  | .ok op =>
    if op.format = .l then
      if lenField h = 0 then launch { s with cmdIn := rest, hdr := h, listCnt := 0 }
      else receive rest { s with cmdIn := rest, hdr := h, listCnt := 0, fsm := .recv }
    else launch { s with cmdIn := rest, hdr := h }

/-- What the controller does by itself, decided by FSM: in IDLE a header is taken, in RECV payload words, in EXEC the command
runs, in BUS the transport is asked again and no word is taken (R66, R80), in FAULT nothing happens (R176). -/
def fetchByFsm (s : State) : Fetched :=
  match s.fsm with
  | .idle =>
    match s.cmdIn with
    | [] => .done (.next s)
    | h :: rest => takeHeader h rest s
  | .recv => receive s.cmdIn s
  | .exec => launch s
  | .bus op => .done (.next (s.awaitBus op))
  | .fault => .done (.next s)

/-- One step up to the command it runs: a configuration without a meaning is refused, and a reset request is served before
anything else (notes/assumptions/8.md). -/
def fetch (s : State) : Fetched :=
  match configRefusal s.cfg with
  | some r => .done (.refused r)
  | none =>
    match s.resetReq with
    | some req => .done (serviceReset req s)
    | none => fetchByFsm s

end Sys2Proof.Machine
end

