-- ==== Sys2Proof/Machine/Step.lean ====
section
/-!
DEFINITION. One step of the machine: what the controller does up to the completion of one command, or to the next point at
which it waits for a word or for the transport (notes/assumptions/1.md).
-/

namespace Sys2Proof.Machine

/-- A fetched command runs; else the outcome is there already. -/
def Fetched.outcome : Fetched → Host.Outcome State Fault Refusal
  | .run i s => exec i s
  | .done o => o

/-- One step. -/
def step (s : State) : Host.Outcome State Fault Refusal := (fetch s).outcome

/-- The state in which the host offers the command with the bits `w` first, and the controller is ready to take it: FSM is
IDLE and no reset is pending (notes/assumptions/19.md). -/
def State.withFetchWord (s : State) (nbits w : Nat) : State :=
  { s with cmdIn := tableWords nbits w ++ s.cmdIn, fsm := .idle, resetReq := none }

end Sys2Proof.Machine
end

