-- ==== Sys2Proof/Machine/Assembler.lean ====
section
/-!
DEFINITION. The assembler of spec/30_encoding.md R91: one command per line, as text, to the command and its words. It
refuses what does not fit its field and never truncates.
-/

namespace Sys2Proof.Machine

/-- Why the assembler refuses a line (R91). -/
inductive AsmError
  /-- The first word is no mnemonic and no alias. -/
  | unknownMnemonic
  /-- The number or form of the operands is not the command's. -/
  | operandForm
  /-- An operand is no integer, and no symbol where one may stand. -/
  | notAValue
  /-- A pin outside -128 to 127. -/
  | pinRange
  /-- A value outside 0 to 255. -/
  | valueRange
  /-- A list of more than 255 elements. -/
  | listTooLong
  deriving DecidableEq, Repr

/-- The upper-case mnemonic and the source's method name of an opcode (R86, R91). -/
def asmNames : Opcode → List Char × List Char
  | .isConnected => ("ISCONNECTED".toList, "isConnected".toList)
  | .beginCmd => ("BEGIN".toList, "begin".toList)
  | .setMode => ("SETMODE".toList, "setMode".toList)
  | .getMode => ("GETMODE".toList, "getMode".toList)
  | .setInversion => ("SETINVERSION".toList, "setInversion".toList)
  | .getInversion => ("GETINVERSION".toList, "getInversion".toList)
  | .setGpio => ("SETGPIO".toList, "setGPIO".toList)
  | .getGpio => ("GETGPIO".toList, "getGPIO".toList)
  | .pinMode => ("PINMODE".toList, "pinMode".toList)
  | .pinModePort => ("PINMODEPORT".toList, "pinModePort".toList)
  | .invertPin => ("INVERTPIN".toList, "invertPin".toList)
  | .invertPinPort => ("INVERTPINPORT".toList, "invertPinPort".toList)
  | .digitalWrite => ("DIGITALWRITE".toList, "digitalWrite".toList)
  | .digitalWritePort => ("DIGITALWRITEPORT".toList, "digitalWritePort".toList)
  | .digitalRead => ("DIGITALREAD".toList, "digitalRead".toList)
  | .digitalReadPort => ("DIGITALREADPORT".toList, "digitalReadPort".toList)

/-- The opcode a mnemonic or alias names (R91). -/
def asmOpcode (name : List Char) : Option Opcode :=
  Opcode.all.find? fun o => (asmNames o).1 == name || (asmNames o).2 == name

/-- The value of a symbol (R91). -/
def asmSymbol (name : List Char) : Option Int :=
  if name == "OUT".toList || name == "LOW".toList || name == "NO_INVERT".toList || name == "false".toList then some 0
  else if name == "IN".toList || name == "HIGH".toList || name == "INVERT".toList || name == "true".toList then some 1
  else none

/-- Spaces and tabs before and after a text are dropped. -/
def asmTrim (cs : List Char) : List Char :=
  let blank := fun c : Char => c == ' ' || c == '\t'
  ((cs.dropWhile blank).reverse.dropWhile blank).reverse

/-- The parts of a text between commas. -/
def asmSplit : List Char → List (List Char)
  | [] => [[]]
  | c :: cs =>
    match asmSplit cs with
    | part :: parts => if c == ',' then [] :: part :: parts else (c :: part) :: parts
    | [] => [[c]]

/-- The value of a digit in a base of at most 16. -/
def asmDigit (base : Nat) (c : Char) : Option Nat :=
  let v :=
    if 48 ≤ c.toNat && c.toNat ≤ 57 then some (c.toNat - 48)
    else if 65 ≤ c.toNat && c.toNat ≤ 70 then some (c.toNat - 55)
    else if 97 ≤ c.toNat && c.toNat ≤ 102 then some (c.toNat - 87)
    else none
  match v with
  | some d => if d < base then some d else none
  | none => none

/-- The number that digits denote after `acc`. -/
def asmDigits (base : Nat) : Nat → List Char → Option Nat
  | acc, [] => some acc
  | acc, c :: cs =>
    match asmDigit base c with
    | some d => asmDigits base (acc * base + d) cs
    | none => none

/-- A decimal or `0x` hex number, at least one digit. -/
def asmNat : List Char → Option Nat
  | [] => none
  | '0' :: 'x' :: c :: cs => asmDigits 16 0 (c :: cs)
  | c :: cs => asmDigits 10 0 (c :: cs)

/-- A decimal or hex integer, with an optional minus sign (R91). -/
def asmInt : List Char → Option Int
  | '-' :: cs => (asmNat cs).map fun n => -(n : Int)
  | cs => (asmNat cs).map fun n => (n : Int)

/-- `<pin>`: an integer in -128 to 127, encoded as pin mod 256 (R91). -/
def asmPin (cs : List Char) : Except AsmError Byte :=
  match asmInt cs with
  | some n => if -128 ≤ n ∧ n ≤ 127 then .ok (BitVec.ofInt 8 n) else .error .pinRange
  | none => .error .notAValue

/-- `<value>`: an integer in 0 to 255 or a symbol, whatever the command (R91). -/
def asmValue (cs : List Char) : Except AsmError Byte :=
  match (asmSymbol cs).or (asmInt cs) with
  | some n => if 0 ≤ n ∧ n ≤ 255 then .ok (BitVec.ofInt 8 n) else .error .valueRange
  | none => .error .notAValue

/-- The elements of a list. -/
def asmValues : List (List Char) → Except AsmError (List Byte)
  | [] => .ok []
  | cs :: rest =>
    match asmValue (asmTrim cs) with
    | .error e => .error e
    | .ok v =>
      match asmValues rest with
      | .error e => .error e
      | .ok vs => .ok (v :: vs)

/-- `[<value>, …]`, 0 to 255 elements (R91). -/
def asmList (cs : List Char) : Except AsmError (List Byte) :=
  match cs with
  | '[' :: rest =>
    match rest.reverse with
    | ']' :: inside =>
      let body := asmTrim inside.reverse
      match if body.isEmpty then .ok [] else asmValues (asmSplit body) with
      | .error e => .error e
      | .ok vs => if vs.length ≤ 255 then .ok vs else .error .listTooLong
    | _ => .error .operandForm
  | _ => .error .operandForm

/-- The operands of a command of the format of its opcode (R82, R91). -/
def asmOperands (op : Opcode) (cs : List Char) : Except AsmError Instr :=
  match op.format with
  | .n => if cs.isEmpty then .ok (op.command 0 0 []) else .error .operandForm
  | .p =>
    match asmPin cs with
    | .ok pin => .ok (op.command pin 0 [])
    | .error e => .error e
  | .pv =>
    match asmSplit cs with
    | [p, v] =>
      match asmPin (asmTrim p), asmValue (asmTrim v) with
      | .ok pin, .ok val => .ok (op.command pin val [])
      | .error e, _ => .error e
      | .ok _, .error e => .error e
    | _ => .error .operandForm
  | .l =>
    match asmList cs with
    | .ok list => .ok (op.command 0 0 list)
    | .error e => .error e

/-- The command of a line (R91). -/
def assembleChars (line : List Char) : Except AsmError Instr :=
  let text := asmTrim line
  let isWord := fun c : Char => !(c == ' ' || c == '\t')
  match asmOpcode (text.takeWhile isWord) with
  | none => .error .unknownMnemonic
  | some op => asmOperands op (asmTrim (text.dropWhile isWord))

/-- The words of a line (R91). -/
def assemble (line : String) : Except AsmError (List Word) :=
  match assembleChars line.toList with
  | .ok i => .ok (encode i)
  | .error e => .error e

end Sys2Proof.Machine
end

