-- ==== Sys2Proof/Safety.lean ====
section
/-!
DEFINITION. What claims about the machine are stated in: how a run ends (spec/70_reset_and_hazards.md R203), the invariant
that every step keeps, the states a host and a transport can lead the machine to, and the words in which the statements
about commands are written.
-/

namespace Sys2Proof.Machine

/-! ### How a run ends (R203) -/

/-- Every offered command has been taken and answered, and FSM is IDLE. That the host has read RSP is the host's side. -/
def State.EndsNormally (s : State) : Prop := s.fsm = .idle ∧ s.cmdIn = [] ∧ s.resetReq = none

/-- A run with FSM = FAULT ends badly. -/
def State.EndsBadly (s : State) : Prop := s.fsm = .fault

/-- What `n` steps lead to, while nothing around the controller acts. -/
def steps : Nat → State → Host.Outcome State Fault Refusal
  | 0, s => .next s
  | n + 1, s =>
    match step s with
    | .next t => steps n t
    | .fault f => .fault f
    | .refused r => .refused r

/-- FSM is BUS or RECV and the controller makes no further step: however long it is left alone, nothing but the transport,
which goes on being asked in BUS (R66), is ever changed. -/
def State.Stuck (s : State) : Prop :=
  ((∃ op, s.fsm = .bus op) ∨ s.fsm = .recv) ∧ ∀ n, ∃ t, steps n s = .next { s with transport := t }

/-- The transport after it has been asked `n` times for the outcome of `x`. -/
def Transport.polled (t : Transport) (x : Txn) : Nat → Transport
  | 0 => t
  | n + 1 => (t.ask x).2.polled x n

/-- The transaction `x` never completes: however often it is asked, the transport has no answer (R66). -/
def Transport.NeverAnswers (t : Transport) (x : Txn) : Prop := ∀ n, ((t.polled x n).ask x).1 = none

/-! ### The invariant -/

/-- PACK of every cache array succeeds (R121). -/
def State.Packs (s : State) : Prop := ∀ a : CacheArray, ∃ b, pack s.cfg.nonbinaryPack (s.cached a) = .ok b

/-- RSP holds one of the two forms of R90 that are not a fault's. -/
def State.RspUnfaulted (s : State) : Prop := s.rsp = 0x0000 ∨ ∃ d : Byte, s.rsp = 0x0100 ||| d.setWidth 16

/-- FAULT_CODE is one of the codes of R172, and RSP is that fault's response (R171). -/
def State.RspFaulted (s : State) : Prop :=
  (1 ≤ s.faultCode.toNat ∧ s.faultCode.toNat ≤ 5) ∧ s.rsp = 0x0200 ||| s.faultCode.setWidth 16

/-- What holds of every state between steps: the configuration is one a model accepts (R6, R182); outside FAULT every cache
array packs (R121), FAULT_CODE is NONE and RSP shows no fault (R28, R90); in FAULT both show the fault (R171, R172); in RECV
HDR holds a per-port header with payload words still to come (R26, R29). FSM is never EXEC between steps. -/
structure State.Inv (s : State) : Prop where
  config : configRefusal s.cfg = none
  packs : s.fsm ≠ .fault → s.Packs
  unfaulted : s.fsm ≠ .fault → s.faultCode = 0x00 ∧ s.RspUnfaulted
  faulted : s.fsm = .fault → s.RspFaulted
  receiving : s.fsm = .recv →
    ∃ op, decodeHeader s.hdr = .ok op ∧ op.format = .l ∧ s.listCnt.toNat < (lenField s.hdr).toNat
  notExec : s.fsm ≠ .exec

/-- The states that some host and some transport lead an instance to: construction with any configuration a model accepts,
any words offered, any reset asked for and any transport, then steps, between which the agents around the controller may
change what is theirs in any way. -/
inductive Reachable : State → Prop
  | construct (c : Config) (words : List Word) (req : Option ResetReq) (t : Transport) (h : configRefusal c = none) :
      Reachable { State.reset with cfg := c, cmdIn := words, resetReq := req, transport := t }
  | environment (s : State) (words : List Word) (req : Option ResetReq) (t : Transport) (h : Reachable s) :
      Reachable { s with cmdIn := words, resetReq := req, transport := t }
  | step (s s' : State) (h : Reachable s) (hs : Sys2Proof.Machine.step s = .next s') : Reachable s'

/-! ### The words of the statements -/

/-- The elements `es` are stored in LISTBUF from entry `n` on (R29). -/
def storeAll (buf : Vector Byte 255) (n : Byte) : List Byte → Vector Byte 255
  | [] => buf
  | e :: es => storeAll (storeEntry buf n e) (n + 1) es

/-- The state in which an accepted command runs: its words are taken, HDR holds its header, a per-port command has its
elements in LISTBUF and their number in LISTCNT, and FSM is EXEC (R26, R29). -/
def State.accepted (s : State) (i : Instr) (h : Word) (rest : List Word) : State :=
  { s with
    cmdIn := rest
    hdr := h
    listBuf := storeAll s.listBuf 0 i.listOperand
    listCnt := if i.opcode.format = .l then BitVec.ofNat 8 i.listOperand.length else s.listCnt
    fsm := .exec }

/-- A no-op (R170): RSP = 0x0000, FSM IDLE, the command completed, nothing else changed. -/
def IsNoop (i : Instr) (s : State) : Prop :=
  exec i s = .next { s with rsp := 0x0000, fsm := .idle, k := s.k + 1 }

/-- The command ends in the fault `code`, raised in the state `s1` that its cache update has left (R171, R174). Whether `k`
counts it is not in the spec (notes/assumptions/15.md) and is left open here, as in every fault below. -/
def EndsInFault (i : Instr) (s s1 : State) (code : Byte) : Prop :=
  ∃ k, exec i s = .next { s1 with faultCode := code, rsp := 0x0200 ||| code.setWidth 16, fsm := .fault, k := k }

/-- The command issues one presence query and returns its answer (R65, R100). -/
def ProbeEnds (i : Instr) (s : State) : Prop :=
  (∀ d t, s.transport.ask .probe = (some d, t) →
    exec i s = .next { s with
      transport := t, hist := s.hist ++ [.probe s.cfg.addr d.present],
      rsp := 0x0100 ||| d.present.setWidth 16, fsm := .idle, k := s.k + 1 }) ∧
  ∀ t, s.transport.ask .probe = (none, t) → exec i s = .next { s with transport := t, fsm := .bus .probe }

/-- The command issues one read of `reg` (R63): completed with the byte `b`, it leaves the refreshed state `upd b` and
returns `data b`; failed, it raises BUS_READ_ERROR with nothing refreshed; until it completes, FSM is BUS. -/
def ReadEnds (i : Instr) (s : State) (use : ReadUse) (reg : RemoteReg) (upd : Byte → State) (data : Byte → Byte) : Prop :=
  (∀ d t, s.transport.ask (.read reg) = (some d, t) → d.ok = true →
    exec i s = .next { upd d.byte with
      transport := t, hist := s.hist ++ [.read s.cfg.addr reg d.byte],
      rsp := 0x0100 ||| (data d.byte).setWidth 16, fsm := .idle, k := s.k + 1 }) ∧
  (∀ d t, s.transport.ask (.read reg) = (some d, t) → d.ok = false →
    ∃ k, exec i s = .next { s with
      transport := t, hist := s.hist ++ [.readFail s.cfg.addr reg],
      faultCode := 0x04, rsp := 0x0204, fsm := .fault, k := k }) ∧
  ∀ t, s.transport.ask (.read reg) = (none, t) → exec i s = .next { s with transport := t, fsm := .bus (.read use) }

/-- The command, whose cache update has left `s1`, issues one write of the byte `b` to `reg` (R64): completed, it returns no
value; failed, it raises BUS_WRITE_ERROR with the cache update in place; until it completes, FSM is BUS. -/
def WriteEnds (i : Instr) (s s1 : State) (array : CacheArray) (reg : RemoteReg) (b : Byte) : Prop :=
  (∀ d t, s1.transport.ask (.write reg b) = (some d, t) → d.ok = true →
    exec i s = .next { s1 with
      transport := t, hist := s1.hist ++ [.write s1.cfg.addr reg b], rsp := 0x0000, fsm := .idle, k := s1.k + 1 }) ∧
  (∀ d t, s1.transport.ask (.write reg b) = (some d, t) → d.ok = false →
    ∃ k, exec i s = .next { s1 with
      transport := t, hist := s1.hist ++ [.writeFail s1.cfg.addr reg b],
      faultCode := 0x05, rsp := 0x0205, fsm := .fault, k := k }) ∧
  ∀ t, s1.transport.ask (.write reg b) = (none, t) →
    exec i s = .next { s1 with transport := t, fsm := .bus (.write array b) }

/-- The command, whose cache update has left `s1`, flushes `array` to `reg`: a fault of PACK ends it with no transaction,
else the packed byte is written (R111, R115, R173). -/
def FlushEnds (i : Instr) (s s1 : State) (array : CacheArray) (reg : RemoteReg) : Prop :=
  (∀ c, pack s1.cfg.nonbinaryPack (s1.cached array) = .error c → EndsInFault i s s1 c.code) ∧
  ∀ b, pack s1.cfg.nonbinaryPack (s1.cached array) = .ok b → WriteEnds i s s1 array reg b

/-- The state in which a completed read of the byte `b` has refreshed its array, all eight elements (R113, R116, R118, R120,
R149, R150). -/
def ReadUse.refreshed (use : ReadUse) (s : State) (b : Byte) : State :=
  match use with
  | .mode => { s with mode := unpack b }
  | .inv => { s with inv := unpack b }
  | .inp | .inpPin _ | .inpPort => { s with inp := unpackBits b }

/-- The data a completed read of the byte `b` returns: one bit of it for DIGITALREAD, else the byte (R90, R149). -/
def ReadUse.returned (use : ReadUse) (b : Byte) : Byte :=
  match use with
  | .inpPin i => if b.getLsbD i.val then 0x01 else 0x00
  | .mode | .inv | .inp | .inpPort => b

/-- Of the four arrays, `t` differs from `s` only by the cache update of the set command `i`, which has been made: one element
for a per-pin command, the whole list for a per-port one, nothing for any other command (R173 step 4, R174). -/
def StoredOnly (i : Instr) (s t : State) : Prop :=
  t.inp = s.inp ∧
  match i with
  | .pinMode pin val => (∃ n : Fin 8, pin.toInt = n.val ∧ t.mode = s.mode.set n.val val) ∧ t.inv = s.inv ∧ t.out = s.out
  | .pinModePort list => t.mode.toList = list ∧ t.inv = s.inv ∧ t.out = s.out
  | .invertPin pin val => (∃ n : Fin 8, pin.toInt = n.val ∧ t.inv = s.inv.set n.val val) ∧ t.mode = s.mode ∧ t.out = s.out
  | .invertPinPort list => t.inv.toList = list ∧ t.mode = s.mode ∧ t.out = s.out
  | .digitalWrite pin val => (∃ n : Fin 8, pin.toInt = n.val ∧ t.out = s.out.set n.val val) ∧ t.mode = s.mode ∧ t.inv = s.inv
  | .digitalWritePort list => t.out.toList = list ∧ t.mode = s.mode ∧ t.inv = s.inv
  | .isConnected | .beginCmd | .setMode | .getMode | .setInversion | .getInversion | .setGpio | .getGpio
  | .digitalRead _ | .digitalReadPort => t.mode = s.mode ∧ t.inv = s.inv ∧ t.out = s.out

/-- The kind of a transaction: a row of the table of R67. -/
inductive Traffic
  | probe
  | read (reg : RemoteReg)
  | write (reg : RemoteReg)
  deriving DecidableEq, Repr

/-- The table of R67. -/
def trafficOf : Instr → Traffic
  | .isConnected => .probe
  | .beginCmd => .probe
  | .setMode => .write .configuration
  | .getMode => .read .configuration
  | .setInversion => .write .inversion
  | .getInversion => .read .inversion
  | .setGpio => .write .outputPort
  | .getGpio => .read .inputPort
  | .pinMode _ _ => .write .configuration
  | .pinModePort _ => .write .configuration
  | .invertPin _ _ => .write .inversion
  | .invertPinPort _ => .write .inversion
  | .digitalWrite _ _ => .write .outputPort
  | .digitalWritePort _ => .write .outputPort
  | .digitalRead _ => .read .inputPort
  | .digitalReadPort => .read .inputPort

/-- The kind of a recorded transaction. -/
def BusEvent.traffic : BusEvent → Traffic
  | .probe _ _ => .probe
  | .read _ reg _ => .read reg
  | .readFail _ reg => .read reg
  | .write _ reg _ => .write reg
  | .writeFail _ reg _ => .write reg

/-- The device address of a recorded transaction. -/
def BusEvent.addr : BusEvent → Nat
  | .probe a _ => a
  | .read a _ _ => a
  | .readFail a _ => a
  | .write a _ _ => a
  | .writeFail a _ _ => a

/-- The history grows by nothing, or by one transaction of the kind `x` at the configured address. -/
def AtMostOne (s t : State) (x : Traffic → Prop) : Prop :=
  t.hist = s.hist ∨ ∃ e : BusEvent, t.hist = s.hist ++ [e] ∧ e.addr = s.cfg.addr ∧ x e.traffic

/-- The two states agree on everything but HDR, LISTBUF and LISTCNT, and on these where the controller still has a use for
them: on HDR, LISTCNT and the entries received while it is receiving, on HDR and the payload while a command is about to
run (R29). -/
def SameButHidden (s t : State) : Prop :=
  t = { s with hdr := t.hdr, listBuf := t.listBuf, listCnt := t.listCnt } ∧
  (s.fsm = .recv → t.hdr = s.hdr ∧ t.listCnt = s.listCnt ∧
    ∀ j, j < s.listCnt.toNat → t.listBuf.toList[j]? = s.listBuf.toList[j]?) ∧
  (s.fsm = .exec → t.hdr = s.hdr ∧ ∀ j, j < payloadLen s.hdr → t.listBuf.toList[j]? = s.listBuf.toList[j]?)

/-- Two outcomes stop in the same way, or go on to states that agree as `SameButHidden` says. -/
def OutcomesSameButHidden : Host.Outcome State Fault Refusal → Host.Outcome State Fault Refusal → Prop
  | .next s, .next t => SameButHidden s t
  | .fault a, .fault b => a = b
  | .refused a, .refused b => a = b
  | .next _, .fault _ => False
  | .next _, .refused _ => False
  | .fault _, .next _ => False
  | .fault _, .refused _ => False
  | .refused _, .next _ => False
  | .refused _, .fault _ => False

end Sys2Proof.Machine
end

