-- ==== Sys2Proof/Certificates/Slice0/Obligations.lean ====
section
/-!
DEFINITION. The statements for the provers, each from the numbered rules of spec/ that its docstring names.
-/

open Sys2Proof Sys2Proof.Machine

/-! ### Encoding -/

/-- DECODE OF ENCODE (R81 to R86, R89): the words of a well-formed command decode to it, whatever words follow. -/
def Obligations.DecodeOfEncode : Prop :=
  ∀ (i : Instr) (rest : List Word), i.wellFormed = true → decode (encode i ++ rest) = .ok (i, rest)

/-- ENCODE OF DECODE (R82, R85, R88, R89): what the decoder accepts are exactly the words the encoder writes, and the command
it reads is well-formed. -/
def Obligations.EncodeOfDecode : Prop :=
  ∀ (ws : List Word) (i : Instr) (rest : List Word), decode ws = .ok (i, rest) →
    ws = encode i ++ rest ∧ i.wellFormed = true

/-- R82, R86: the rows of spec/opcode_table.json, opcode, mask over H and match. A header is a legal one of a row exactly when
its masked bits are the row's match, and every legal header is one of a row. -/
def Obligations.LegalHeadersAreTheRowsOfTheTable : Prop :=
  let rows : List (Opcode × Word × Word) :=
    [(.isConnected, 0xFFFFFFFF, 0x00000001), (.beginCmd, 0xFFFFFFFF, 0x00000002),
     (.setMode, 0xFFFFFFFF, 0x00000003), (.getMode, 0xFFFFFFFF, 0x00000004),
     (.setInversion, 0xFFFFFFFF, 0x00000005), (.getInversion, 0xFFFFFFFF, 0x00000006),
     (.setGpio, 0xFFFFFFFF, 0x00000007), (.getGpio, 0xFFFFFFFF, 0x00000008),
     (.pinMode, 0xFF0000FF, 0x00000009), (.pinModePort, 0x00FFFFFF, 0x0000000A),
     (.invertPin, 0xFF0000FF, 0x0000000B), (.invertPinPort, 0x00FFFFFF, 0x0000000C),
     (.digitalWrite, 0xFF0000FF, 0x0000000D), (.digitalWritePort, 0x00FFFFFF, 0x0000000E),
     (.digitalRead, 0xFFFF00FF, 0x0000000F), (.digitalReadPort, 0xFFFFFFFF, 0x00000010)]
  ∀ h : Word, (∀ r ∈ rows, decodeHeader h = .ok r.1 ↔ h &&& r.2.1 = r.2.2) ∧
    ∀ op, decodeHeader h = .ok op → ∃ r ∈ rows, r.1 = op

/-- A header is illegal exactly when its OP is 0x00 or 0x11 to 0x1F, its RSV is not zero, or a field its format does not use
is not zero; a payload word is illegal exactly when W[31:8] is not zero (R87). -/
def Obligations.IllegalWordsAreThoseListed : Prop :=
  (∀ h : Word, (∃ e, decodeHeader h = .error e) ↔
    (h.extractLsb' 0 5 = 0x00#5 ∨ 0x11#5 ≤ h.extractLsb' 0 5) ∨
    h.extractLsb' 5 3 ≠ 0 ∨
    ∃ op, Opcode.ofCode (h.extractLsb' 0 5) = some op ∧
      ((op.format ≠ .p ∧ op.format ≠ .pv ∧ h.extractLsb' 8 8 ≠ 0) ∨
       (op.format ≠ .pv ∧ h.extractLsb' 16 8 ≠ 0) ∨
       (op.format ≠ .l ∧ h.extractLsb' 24 8 ≠ 0))) ∧
  ∀ w : Word, payloadLegal w = false ↔ w.extractLsb' 8 24 ≠ 0

/-- Words written out from the encoding tables (R81, R86) and from spec/95_test_vectors.md decode to their commands. -/
def Obligations.SampleWordsDecode : Prop :=
  decode [0x00000001] = .ok (.isConnected, []) ∧
  decode [0x00000004] = .ok (.getMode, []) ∧
  decode [0x00010309] = .ok (.pinMode 3 1, []) ∧
  decode [0x0001000B] = .ok (.invertPin 0 1, []) ∧
  decode [0x0007FF0D] = .ok (.digitalWrite (-1) 7, []) ∧
  decode [0x0000FF0F] = .ok (.digitalRead (-1), []) ∧
  decode [0x00000010] = .ok (.digitalReadPort, []) ∧
  decode [0x0200000E, 0x00000001, 0x00000005, 0x00000001] = .ok (.digitalWritePort [1, 5], [0x00000001])

/-- What the assembler accepts has an encoding; it refuses a pin outside -128 to 127 and encodes any other as pin mod 256; it
refuses a value outside 0 to 255 and takes any other, and a symbol's 0 or 1, as it is; and a list has the values of its
parts, all of them, and is refused with more than 255 (R91). -/
def Obligations.AssembledCommandsFitTheirFields : Prop :=
  (∀ (line : List Char) (i : Instr), assembleChars line = .ok i → i.wellFormed = true) ∧
  (∀ (text : List Char) (n : Int), asmInt text = some n →
    asmPin text = if -128 ≤ n ∧ n ≤ 127 then .ok (BitVec.ofInt 8 (n % 256)) else .error .pinRange) ∧
  (∀ (text : List Char) (n : Int), asmInt text = some n → asmSymbol text = none →
    (0 ≤ n ∧ n ≤ 255 → ∃ v, asmValue text = .ok v ∧ (v.toNat : Int) = n) ∧
    (n < 0 ∨ 255 < n → asmValue text = .error .valueRange)) ∧
  (∀ (text : List Char) (n : Int), asmSymbol text = some n → (n = 0 ∨ n = 1) ∧ asmValue text = .ok (BitVec.ofInt 8 n)) ∧
  (∀ (texts : List (List Char)) (vs : List Byte), asmValues texts = .ok vs →
    List.Forall₂ (fun text v => asmValue (asmTrim text) = .ok v) texts vs) ∧
  ∀ (inside : List Char) (vs : List Byte), asmTrim inside ≠ [] → asmValues (asmSplit (asmTrim inside)) = .ok vs →
    asmList ('[' :: (inside ++ [']'])) = if vs.length ≤ 255 then .ok vs else .error .listTooLong

/-! ### The pack and unpack engine -/

/-- R113: element i of UNPACK(b) is (b >> i) & 1, for MODE, INV and OUT and for the 1-bit elements of INP. -/
def Obligations.UnpackTakesOneBitPerPin : Prop :=
  ∀ (b : Byte) (i : Fin 8),
    ((unpack b)[i] = 0 ∨ (unpack b)[i] = 1) ∧
    (unpack b)[i].toNat = b.toNat / 2 ^ i.val % 2 ∧
    (unpackBits b)[i].toNat = b.toNat / 2 ^ i.val % 2

/-- R114: the round trips of the engine. A binary array packs under either policy and is unpacked again; every byte unpacks
to an array that packs to it; a non-binary array faults under `fault`, and under `positional` is not what its packed byte
unpacks to. -/
def Obligations.PackAndUnpackRoundTrip : Prop :=
  (∀ (p : NonbinaryPack) (a : PinArray), (∀ i : Fin 8, a[i] = 0 ∨ a[i] = 1) →
    ∃ b, pack p a = .ok b ∧ unpack b = a) ∧
  (∀ (p : NonbinaryPack) (b : Byte), pack p (unpack b) = .ok b) ∧
  ∀ (a : PinArray) (i : Fin 8), a[i] ≠ 0 → a[i] ≠ 1 →
    pack .fault a = .error .nonbinaryPack ∧ ∀ b, pack .positional a = .ok b → unpack b ≠ a

/-- R111, `fault`: PACK raises NONBINARY_PACK exactly when some element is above 1, and else bit i is element i. -/
def Obligations.PackUnderFaultPolicy : Prop :=
  ∀ a : PinArray,
    ((∃ i : Fin 8, 1 < a[i].toNat) → pack .fault a = .error .nonbinaryPack) ∧
    ((∀ i : Fin 8, a[i].toNat ≤ 1) →
      ∃ b, pack .fault a = .ok b ∧ ∀ i : Fin 8, b.getLsbD i = a[i].getLsbD 0)

/-- R111 and R112, `positional`: PACK raises PACK_OVERFLOW exactly when some `A[i] << i` reaches bit 8, and else a bit j of
the byte is set exactly when some element i sets it, that is when bit j - i of that element is set. -/
def Obligations.PackUnderPositionalPolicy : Prop :=
  ∀ a : PinArray,
    ((∃ i : Fin 8, 0x100 ≤ a[i].toNat * 2 ^ i.val) → pack .positional a = .error .packOverflow) ∧
    ((∀ i : Fin 8, a[i].toNat * 2 ^ i.val < 0x100) →
      ∃ b, pack .positional a = .ok b ∧
        ∀ j : Fin 8, b.getLsbD j = true ↔ ∃ i : Fin 8, i.val ≤ j.val ∧ a[i].getLsbD (j.val - i.val) = true)

/-- R121: in every state that some host and some transport lead the machine to, PACK of MODE, of INV and of OUT succeeds
while FSM is not FAULT; and there a command raises a fault of PACK only over a value that it stored itself: a list element
of a per-port set command, the value of DIGITALWRITE, or the value of INVERTPIN when it is not validated. -/
def Obligations.PackSafety : Prop :=
  ∀ s : State, Reachable s → s.fsm ≠ .fault →
    ((∃ b, pack s.cfg.nonbinaryPack s.mode = .ok b) ∧
      (∃ b, pack s.cfg.nonbinaryPack s.inv = .ok b) ∧
      ∃ b, pack s.cfg.nonbinaryPack s.out = .ok b) ∧
    ∀ (i : Instr) (t : State), exec i s = .next t → t.faultCode = 0x02 ∨ t.faultCode = 0x03 →
      ∃ (n : Nat) (v : Byte),
        ((s.cfg.nonbinaryPack = .fault ∧ t.faultCode = 0x02 ∧ 1 < v.toNat) ∨
         (s.cfg.nonbinaryPack = .positional ∧ t.faultCode = 0x03 ∧ 0x100 ≤ v.toNat * 2 ^ n)) ∧
        ((∃ l : List Byte, l[n]? = some v ∧ (i = .pinModePort l ∨ i = .invertPinPort l ∨ i = .digitalWritePort l)) ∨
         ∃ p : Byte, p.toInt = n ∧ n < 8 ∧
           (i = .digitalWrite p v ∨ (i = .invertPin p v ∧ s.cfg.invertPinValidates = false)))

/-! ### The commands, rule by rule -/

/-- ISCONNECTED (R100): its one word, every other word of its opcode being illegal, and its one presence query. -/
def Obligations.IsConnectedDoesItsRule : Prop :=
  encode .isConnected = [0x00000001] ∧
  (∀ h : Word, h.extractLsb' 0 5 = 0x01#5 → h ≠ 0x00000001 → ∃ e, decodeHeader h = .error e) ∧
  ∀ s : State, ProbeEnds .isConnected s

/-- BEGIN (R101): its word, its one presence query, and in every state the outcome of ISCONNECTED. -/
def Obligations.BeginDoesItsRule : Prop :=
  encode .beginCmd = [0x00000002] ∧ ∀ s : State, ProbeEnds .beginCmd s ∧ exec .beginCmd s = exec .isConnected s

/-- SETMODE (R115). -/
def Obligations.SetModeDoesItsRule : Prop :=
  encode .setMode = [0x00000003] ∧ ∀ s : State,
    FlushEnds .setMode s s .mode .configuration ∧
    (s.Inv → s.fsm ≠ .fault → ∃ b, pack s.cfg.nonbinaryPack s.mode = .ok b)

/-- GETMODE (R116). -/
def Obligations.GetModeDoesItsRule : Prop :=
  encode .getMode = [0x00000004] ∧ ∀ s : State,
    ReadEnds .getMode s .mode .configuration (fun b => { s with mode := unpack b }) (fun b => b)

/-- SETINVERSION (R117). -/
def Obligations.SetInversionDoesItsRule : Prop :=
  encode .setInversion = [0x00000005] ∧ ∀ s : State,
    FlushEnds .setInversion s s .inv .inversion ∧
    (s.Inv → s.fsm ≠ .fault → ∃ b, pack s.cfg.nonbinaryPack s.inv = .ok b)

/-- GETINVERSION (R118). -/
def Obligations.GetInversionDoesItsRule : Prop :=
  encode .getInversion = [0x00000006] ∧ ∀ s : State,
    ReadEnds .getInversion s .inv .inversion (fun b => { s with inv := unpack b }) (fun b => b)

/-- SETGPIO (R119). -/
def Obligations.SetGpioDoesItsRule : Prop :=
  encode .setGpio = [0x00000007] ∧ ∀ s : State,
    FlushEnds .setGpio s s .out .outputPort ∧
    (s.Inv → s.fsm ≠ .fault → ∃ b, pack s.cfg.nonbinaryPack s.out = .ok b)

/-- GETGPIO (R120): INP, not OUT, is refreshed. -/
def Obligations.GetGpioDoesItsRule : Prop :=
  encode .getGpio = [0x00000008] ∧ ∀ s : State,
    ReadEnds .getGpio s .inp .inputPort (fun b => { s with inp := unpackBits b }) (fun b => b)

/-- PINMODE (R143): no-op unless the value is binary and the pin is in 0 to 7; else MODE[pin] is stored and MODE flushed. -/
def Obligations.PinModeDoesItsRule : Prop :=
  encode (.pinMode 3 1) = [0x00010309] ∧
  (∀ pin val : Byte, encode (.pinMode pin val) = [0x09#32 ||| pin.setWidth 32 <<< 8 ||| val.setWidth 32 <<< 16]) ∧
  ∀ (s : State) (pin val : Byte),
    (¬((val = 0 ∨ val = 1) ∧ 0 ≤ pin.toInt ∧ pin.toInt ≤ 7) → IsNoop (.pinMode pin val) s) ∧
    ∀ i : Fin 8, pin.toInt = i.val → val = 0 ∨ val = 1 →
      FlushEnds (.pinMode pin val) s { s with mode := s.mode.set i.val val } .mode .configuration ∧
      (s.Inv → s.fsm ≠ .fault → ∃ b, pack s.cfg.nonbinaryPack (s.mode.set i.val val) = .ok b)

/-- PINMODEPORT (R144): no-op unless the list has 8 elements; else element i goes to MODE[i], unchecked, and MODE is
flushed. -/
def Obligations.PinModePortDoesItsRule : Prop :=
  (∀ a : PinArray, (encode (.pinModePort a.toList)).head? = some 0x0800000A) ∧
  ∀ s : State,
    (∀ list : List Byte, list.length ≠ 8 → IsNoop (.pinModePort list) s) ∧
    ∀ a : PinArray, FlushEnds (.pinModePort a.toList) s { s with mode := a } .mode .configuration ∧
      (s.cfg.nonbinaryPack = .fault → (∃ i : Fin 8, 1 < a[i].toNat) →
        EndsInFault (.pinModePort a.toList) s { s with mode := a } 0x02) ∧
      (s.cfg.nonbinaryPack = .positional → (∃ i : Fin 8, 0x100 ≤ a[i].toNat * 2 ^ i.val) →
        EndsInFault (.pinModePort a.toList) s { s with mode := a } 0x03)

/-- INVERTPIN (R145): the value is checked only when P_INVERTPIN_VALIDATES is true. -/
def Obligations.InvertPinDoesItsRule : Prop :=
  encode (.invertPin 0 1) = [0x0001000B] ∧
  (∀ pin val : Byte, encode (.invertPin pin val) = [0x0B#32 ||| pin.setWidth 32 <<< 8 ||| val.setWidth 32 <<< 16]) ∧
  ∀ (s : State) (pin val : Byte),
    (¬((s.cfg.invertPinValidates = false ∨ val = 0 ∨ val = 1) ∧ 0 ≤ pin.toInt ∧ pin.toInt ≤ 7) →
      IsNoop (.invertPin pin val) s) ∧
    ∀ i : Fin 8, pin.toInt = i.val → s.cfg.invertPinValidates = false ∨ val = 0 ∨ val = 1 →
      FlushEnds (.invertPin pin val) s { s with inv := s.inv.set i.val val } .inv .inversion ∧
      (s.Inv → s.fsm ≠ .fault →
        val.toNat ≤ 1 ∨ (s.cfg.nonbinaryPack = .positional ∧ val.toNat * 2 ^ i.val < 0x100) →
        ∃ b, pack s.cfg.nonbinaryPack (s.inv.set i.val val) = .ok b) ∧
      (s.cfg.nonbinaryPack = .fault → 1 < val.toNat →
        EndsInFault (.invertPin pin val) s { s with inv := s.inv.set i.val val } 0x02) ∧
      (s.cfg.nonbinaryPack = .positional → 0x100 ≤ val.toNat * 2 ^ i.val →
        EndsInFault (.invertPin pin val) s { s with inv := s.inv.set i.val val } 0x03)

/-- INVERTPINPORT (R146). -/
def Obligations.InvertPinPortDoesItsRule : Prop :=
  (∀ a : PinArray, (encode (.invertPinPort a.toList)).head? = some 0x0800000C) ∧
  ∀ s : State,
    (∀ list : List Byte, list.length ≠ 8 → IsNoop (.invertPinPort list) s) ∧
    ∀ a : PinArray, FlushEnds (.invertPinPort a.toList) s { s with inv := a } .inv .inversion ∧
      (s.cfg.nonbinaryPack = .fault → (∃ i : Fin 8, 1 < a[i].toNat) →
        EndsInFault (.invertPinPort a.toList) s { s with inv := a } 0x02) ∧
      (s.cfg.nonbinaryPack = .positional → (∃ i : Fin 8, 0x100 ≤ a[i].toNat * 2 ^ i.val) →
        EndsInFault (.invertPinPort a.toList) s { s with inv := a } 0x03)

/-- DIGITALWRITE (R147): only the pin is checked; any value 0 to 255 is stored. -/
def Obligations.DigitalWriteDoesItsRule : Prop :=
  encode (.digitalWrite 1 1) = [0x0001010D] ∧
  (∀ pin val : Byte, encode (.digitalWrite pin val) = [0x0D#32 ||| pin.setWidth 32 <<< 8 ||| val.setWidth 32 <<< 16]) ∧
  ∀ (s : State) (pin val : Byte),
    (¬(0 ≤ pin.toInt ∧ pin.toInt ≤ 7) → IsNoop (.digitalWrite pin val) s) ∧
    ∀ i : Fin 8, pin.toInt = i.val →
      FlushEnds (.digitalWrite pin val) s { s with out := s.out.set i.val val } .out .outputPort ∧
      (s.Inv → s.fsm ≠ .fault →
        val.toNat ≤ 1 ∨ (s.cfg.nonbinaryPack = .positional ∧ val.toNat * 2 ^ i.val < 0x100) →
        ∃ b, pack s.cfg.nonbinaryPack (s.out.set i.val val) = .ok b) ∧
      (s.cfg.nonbinaryPack = .fault → 1 < val.toNat →
        EndsInFault (.digitalWrite pin val) s { s with out := s.out.set i.val val } 0x02) ∧
      (s.cfg.nonbinaryPack = .positional → 0x100 ≤ val.toNat * 2 ^ i.val →
        EndsInFault (.digitalWrite pin val) s { s with out := s.out.set i.val val } 0x03)

/-- DIGITALWRITEPORT (R148). -/
def Obligations.DigitalWritePortDoesItsRule : Prop :=
  (∀ a : PinArray, (encode (.digitalWritePort a.toList)).head? = some 0x0800000E) ∧
  ∀ s : State,
    (∀ list : List Byte, list.length ≠ 8 → IsNoop (.digitalWritePort list) s) ∧
    ∀ a : PinArray, FlushEnds (.digitalWritePort a.toList) s { s with out := a } .out .outputPort ∧
      (s.cfg.nonbinaryPack = .fault → (∃ i : Fin 8, 1 < a[i].toNat) →
        EndsInFault (.digitalWritePort a.toList) s { s with out := a } 0x02) ∧
      (s.cfg.nonbinaryPack = .positional → (∃ i : Fin 8, 0x100 ≤ a[i].toNat * 2 ^ i.val) →
        EndsInFault (.digitalWritePort a.toList) s { s with out := a } 0x03)

/-- DIGITALREAD (R149): an invalid pin returns no value and reads nothing; a valid one refreshes all of INP and returns the
bit of that pin. -/
def Obligations.DigitalReadDoesItsRule : Prop :=
  encode (.digitalRead 0) = [0x0000000F] ∧ encode (.digitalRead (-1)) = [0x0000FF0F] ∧
  (∀ pin : Byte, encode (.digitalRead pin) = [0x0F#32 ||| pin.setWidth 32 <<< 8]) ∧
  ∀ (s : State) (pin : Byte),
    (¬(0 ≤ pin.toInt ∧ pin.toInt ≤ 7) → IsNoop (.digitalRead pin) s) ∧
    ∀ i : Fin 8, pin.toInt = i.val →
      ReadEnds (.digitalRead pin) s (.inpPin i) .inputPort (fun b => { s with inp := unpackBits b })
        (fun b => if b.getLsbD i.val then 0x01 else 0x00)

/-- DIGITALREADPORT (R150): the byte returned is the byte read. -/
def Obligations.DigitalReadPortDoesItsRule : Prop :=
  encode .digitalReadPort = [0x00000010] ∧ ∀ s : State,
    ReadEnds .digitalReadPort s .inpPort .inputPort (fun b => { s with inp := unpackBits b }) (fun b => b)

/-! ### Rules over all commands -/

/-- R170: an invalid argument makes the command a no-op, in each of the cases the rule lists. -/
def Obligations.InvalidArgumentsAreNoops : Prop :=
  ∀ (s : State) (pin val : Byte) (list : List Byte),
    (pin.toInt < 0 ∨ 7 < pin.toInt →
      IsNoop (.pinMode pin val) s ∧ IsNoop (.invertPin pin val) s ∧ IsNoop (.digitalWrite pin val) s ∧
      IsNoop (.digitalRead pin) s) ∧
    (1 < val.toNat →
      IsNoop (.pinMode pin val) s ∧ (s.cfg.invertPinValidates = true → IsNoop (.invertPin pin val) s)) ∧
    (list.length ≠ 8 →
      IsNoop (.pinModePort list) s ∧ IsNoop (.invertPinPort list) s ∧ IsNoop (.digitalWritePort list) s)

/-- R67, R47 and R66: a command makes at most one transaction, of the kind its row of the table names, at the configured
address; no step makes more than one, and none reads OUTPUT_PORT or writes INPUT_PORT. -/
def Obligations.TransactionsAreThoseOfTheTable : Prop :=
  (∀ (i : Instr) (s t : State), exec i s = .next t → AtMostOne s t fun x => x = trafficOf i) ∧
  ∀ s t : State, step s = .next t →
    AtMostOne s t fun x => x ≠ .read .outputPort ∧ x ≠ .write .inputPort

/-- R21 to R24 and R34: which commands write which array, and that no command writes the configuration, the registers that
held it while it was received, the command stream or a reset request. -/
def Obligations.CommandsWriteOnlyTheirArrays : Prop :=
  ∀ (i : Instr) (s t : State), exec i s = .next t →
    (t.cfg = s.cfg ∧ t.hdr = s.hdr ∧ t.listBuf = s.listBuf ∧ t.listCnt = s.listCnt ∧ t.cmdIn = s.cmdIn ∧
      t.resetReq = s.resetReq) ∧
    (t.mode = s.mode ∨ i = .getMode ∨ (∃ p v, i = .pinMode p v) ∨ ∃ l, i = .pinModePort l) ∧
    (t.inv = s.inv ∨ i = .getInversion ∨ (∃ p v, i = .invertPin p v) ∨ ∃ l, i = .invertPinPort l) ∧
    (t.out = s.out ∨ (∃ p v, i = .digitalWrite p v) ∨ ∃ l, i = .digitalWritePort l) ∧
    (t.inp = s.inp ∨ i = .getGpio ∨ (∃ p, i = .digitalRead p) ∨ i = .digitalReadPort)

/-- R26, R27, R28, R30 and R90: a command ends in IDLE with a response of R90 and k advanced by one, or in FAULT with its
fault's code and response, or waits in BUS with none of these changed; it never stops the machine. That a wait ends the step
is the model's choice (notes/assumptions/1.md and 11.md). -/
def Obligations.CommandsEndInIdleFaultOrBus : Prop :=
  ∀ (i : Instr) (s : State), ∃ t, exec i s = .next t ∧
    ((t.fsm = .idle ∧ t.RspUnfaulted ∧ t.k = s.k + 1 ∧ t.faultCode = s.faultCode) ∨
     (t.fsm = .fault ∧ t.RspFaulted) ∨
     ((∃ op, t.fsm = .bus op) ∧ t.rsp = s.rsp ∧ t.k = s.k ∧ t.faultCode = s.faultCode ∧ t.hist = s.hist))

/-- R32: VALID after a command that has ended without a fault is 1 for ISCONNECTED, BEGIN, the get commands,
DIGITALREADPORT and DIGITALREAD with a valid pin, and 0 for every other; FAULT is 1 after a fault alone. -/
def Obligations.ValidAndFaultFlags : Prop :=
  ∀ (i : Instr) (s t : State), exec i s = .next t →
    (t.fsm = .idle → rspFaulted t.rsp = false ∧
      (rspValid t.rsp = true ↔
        i = .isConnected ∨ i = .beginCmd ∨ i = .getMode ∨ i = .getInversion ∨ i = .getGpio ∨ i = .digitalReadPort ∨
        ∃ p, i = .digitalRead p ∧ 0 ≤ p.toInt ∧ p.toInt ≤ 7)) ∧
    (t.fsm = .fault → rspFaulted t.rsp = true ∧ rspValid t.rsp = false ∧ rspData t.rsp = t.faultCode)

/-- R174: what a command's fault leaves. In every case the command has stored its element or its list, if it is a set command
that stores one, and of the four arrays nothing else is changed. After a fault of PACK no transaction was made, and the array
that now does not pack is the one of the command's register; after a failed write the failed write of the array's byte is
recorded; after a failed read no array is changed at all and the failed read is recorded. -/
def Obligations.FaultsArePrecise : Prop :=
  ∀ (i : Instr) (s t : State), exec i s = .next t → t.fsm = .fault → StoredOnly i s t ∧
    (((t.faultCode = 0x02 ∨ t.faultCode = 0x03) ∧ t.hist = s.hist ∧ t.transport = s.transport ∧
      ∃ a : CacheArray, (∀ b, pack s.cfg.nonbinaryPack (t.cached a) ≠ .ok b) ∧ trafficOf i = .write a.reg) ∨
    (t.faultCode = 0x05 ∧ ∃ (a : CacheArray) (b : Byte), trafficOf i = .write a.reg ∧
      pack s.cfg.nonbinaryPack (t.cached a) = .ok b ∧ t.hist = s.hist ++ [.writeFail s.cfg.addr a.reg b]) ∨
    (t.faultCode = 0x04 ∧ ∃ r, trafficOf i = .read r ∧ t.hist = s.hist ++ [.readFail s.cfg.addr r] ∧
      t.mode = s.mode ∧ t.inv = s.inv ∧ t.out = s.out ∧ t.inp = s.inp))

/-- R151 and R194: a per-pin set command with a binary value, over a binary array, writes one byte whose bit of that pin is
the value and whose other seven bits are the cached elements, whatever the device holds. -/
def Obligations.PerPinSetsWriteTheWholeCachedArray : Prop :=
  ∀ (a : CacheArray) (s t : State) (pin val : Byte) (i : Fin 8),
    (∀ j : Fin 8, (s.cached a)[j] = 0 ∨ (s.cached a)[j] = 1) → val = 0 ∨ val = 1 → pin.toInt = i.val →
    exec (match a with
      | .mode => .pinMode pin val
      | .inv => .invertPin pin val
      | .out => .digitalWrite pin val) s = .next t →
    t.fsm = .idle →
    ∃ b : Byte, t.hist = s.hist ++ [.write s.cfg.addr a.reg b] ∧
      ∀ j : Fin 8, b.getLsbD j.val = if j = i then val.getLsbD 0 else (s.cached a)[j].getLsbD 0

/-- R33: the host receives neither MODE nor INV nor OUT, and no INP but the refreshed one, in a response: two states that
differ only in the arrays give the same response to a command that both end in IDLE, from the same transport
(notes/assumptions/3.md). -/
def Obligations.ResponsesDoNotShowTheCache : Prop :=
  ∀ (i : Instr) (s t s' : State) (mode inv out : PinArray) (inp : BitArray) (t' : State),
    s' = { s with mode := mode, inv := inv, out := out, inp := inp } →
    exec i s = .next t → exec i s' = .next t' → t.fsm = .idle → t'.fsm = .idle → t.rsp = t'.rsp

/-- R152: for binary MODE and the reference device, `PINMODE p, m` then GETMODE returns a byte whose bit p is m and whose
other bits are the cached MODE elements from before. -/
def Obligations.PinModeThenGetModeReturnsTheCachedModes : Prop :=
  ∀ (s : State) (dev : RefDevice) (p : Fin 8) (m : Byte),
    s.transport = .reference dev → (∀ j : Fin 8, s.mode[j] = 0 ∨ s.mode[j] = 1) → m = 0 ∨ m = 1 →
    ∃ t u d, exec (.pinMode (BitVec.ofNat 8 p.val) m) s = .next t ∧ exec .getMode t = .next u ∧
      u.fsm = .idle ∧ u.rsp = 0x0100 ||| BitVec.setWidth 16 (d : Byte) ∧
      ∀ j : Fin 8, d.getLsbD j.val = if j = p then m.getLsbD 0 else s.mode[j].getLsbD 0

/-! ### The controller: words, the bus, faults, reset -/

/-- A step runs the decoded command (R26, R80, R85, R89): when an accepted configuration has no reset pending, FSM is IDLE
and the offered words decode to a command, the step is that command's meaning in the state in which it was accepted. What one
step spans is the model's choice (notes/assumptions/1.md and 2.md). -/
def Obligations.StepRunsTheDecodedCommand : Prop :=
  ∀ (s : State) (h : Word) (ws rest : List Word) (i : Instr),
    configRefusal s.cfg = none → s.resetReq = none → s.fsm = .idle → s.cmdIn = h :: ws →
    decode (h :: ws) = .ok (i, rest) → step s = exec i (s.accepted i h rest)

/-- An illegal header raises ILLEGAL_COMMAND as soon as it is taken: the word is consumed, and nothing but FAULT_CODE, RSP
and FSM changes (R87, R171, R174). That HDR keeps its old header and `k` does not count the word is the model's reading
(notes/assumptions/15.md and 16.md). -/
def Obligations.IllegalHeaderFaults : Prop :=
  ∀ (s : State) (h : Word) (rest : List Word) (e : DecodeError),
    configRefusal s.cfg = none → s.resetReq = none → s.fsm = .idle → s.cmdIn = h :: rest → decodeHeader h = .error e →
    step s = .next { s with cmdIn := rest, faultCode := 0x01, rsp := 0x0201, fsm := .fault }

/-- An illegal payload word raises ILLEGAL_COMMAND as soon as it is taken: the header and the payload words before it have
been consumed, and of the arrays and the history nothing has changed (R87, R173, R174). That `k` does not count the command,
that LISTBUF and LISTCNT keep what the legal words before the illegal one put there (R29; 93_implementation_defined.md allows
any value in LISTBUF) and that the words after it stay offered is the model's reading (notes/assumptions/15.md, 16.md and
27.md). -/
def Obligations.IllegalPayloadWordFaults : Prop :=
  ∀ (s : State) (h : Word) (op : Opcode) (good rest : List Word) (bad : Word),
    configRefusal s.cfg = none → s.resetReq = none → s.fsm = .idle → s.cmdIn = h :: (good ++ bad :: rest) →
    decodeHeader h = .ok op → op.format = .l → good.length < (lenField h).toNat →
    (∀ w ∈ good, payloadLegal w = true) → payloadLegal bad = false →
    step s = .next { s with
      cmdIn := rest, hdr := h, listBuf := storeAll s.listBuf 0 (good.map payloadElement),
      listCnt := BitVec.ofNat 8 good.length, faultCode := 0x01, rsp := 0x0201, fsm := .fault }

/-- A per-port header whose payload is not complete leaves FSM in RECV with the elements in LISTBUF and their number in
LISTCNT (R26, R29, R85). That the wait for words ends the step is the model's choice (notes/assumptions/1.md). -/
def Obligations.IncompletePayloadWaitsInRecv : Prop :=
  ∀ (s : State) (h : Word) (op : Opcode) (ws : List Word),
    configRefusal s.cfg = none → s.resetReq = none → s.fsm = .idle → s.cmdIn = h :: ws →
    decodeHeader h = .ok op → op.format = .l → ws.length < (lenField h).toNat → (∀ w ∈ ws, payloadLegal w = true) →
    step s = .next { s with
      cmdIn := [], hdr := h, listBuf := storeAll s.listBuf 0 (ws.map payloadElement),
      listCnt := BitVec.ofNat 8 ws.length, fsm := .recv }

/-- The payload may arrive in pieces (R26, R80): after a step that ends in RECV, a step on further words is the step on all
the words at once. That words come as one list is the model's choice (notes/assumptions/2.md). -/
def Obligations.PayloadMayArriveInPieces : Prop :=
  ∀ (s t : State) (more : List Word), step s = .next t → t.fsm = .recv →
    step { t with cmdIn := more } = step { s with cmdIn := s.cmdIn ++ more }

/-- In BUS a step takes no word and issues nothing: it asks the transport again, and without an answer changes nothing else
(R66, R80). A transaction that never completes leaves the controller stuck in BUS (R66, R203). Asking once a step is the model's choice
(notes/assumptions/1.md and 3.md). -/
def Obligations.BusWaitsForTheTransport : Prop :=
  ∀ (s : State) (op : BusOp) (t : Transport),
    configRefusal s.cfg = none → s.resetReq = none → s.fsm = .bus op → s.transport.ask op.txn = (none, t) →
    step s = .next { s with transport := t } ∧ (s.transport.NeverAnswers op.txn → s.Stuck)

/-- A step in BUS for which the transport has an answer ends the command (R26, R63 to R66): the event is recorded and RSP set,
for a read after the refresh of its array, and FSM is IDLE; or a failed transfer is recorded and raises its fault, with
nothing else changed. It is so for every transport. Whether `k` counts a fault is left open (notes/assumptions/15.md). -/
def Obligations.BusAnswerEndsTheCommand : Prop :=
  ∀ (s : State) (op : BusOp) (d : BusDraw) (t : Transport),
    configRefusal s.cfg = none → s.resetReq = none → s.fsm = .bus op → s.transport.ask op.txn = (some d, t) →
    (op = .probe → step s = .next { s with
      transport := t, hist := s.hist ++ [.probe s.cfg.addr d.present],
      rsp := 0x0100 ||| d.present.setWidth 16, fsm := .idle, k := s.k + 1 }) ∧
    (∀ use, op = .read use →
      (d.ok = true → step s = .next { use.refreshed s d.byte with
        transport := t, hist := s.hist ++ [.read s.cfg.addr use.reg d.byte],
        rsp := 0x0100 ||| (use.returned d.byte).setWidth 16, fsm := .idle, k := s.k + 1 }) ∧
      (d.ok = false → ∃ k, step s = .next { s with
        transport := t, hist := s.hist ++ [.readFail s.cfg.addr use.reg],
        faultCode := 0x04, rsp := 0x0204, fsm := .fault, k := k })) ∧
    ∀ array b, op = .write array b →
      (d.ok = true → step s = .next { s with
        transport := t, hist := s.hist ++ [.write s.cfg.addr array.reg b], rsp := 0x0000, fsm := .idle, k := s.k + 1 }) ∧
      (d.ok = false → ∃ k, step s = .next { s with
        transport := t, hist := s.hist ++ [.writeFail s.cfg.addr array.reg b],
        faultCode := 0x05, rsp := 0x0205, fsm := .fault, k := k })

/-- R66 and R203: the stuck states are those in BUS whose transaction never completes, and those in RECV with payload words to
come and none offered, of an instance with an accepted configuration and no reset asked for. -/
def Obligations.StuckStatesAreTheEndlessWaits : Prop :=
  ∀ s : State, s.Stuck ↔
    configRefusal s.cfg = none ∧ s.resetReq = none ∧
    ((∃ op, s.fsm = .bus op ∧ s.transport.NeverAnswers op.txn) ∨
     (s.fsm = .recv ∧ s.cmdIn = [] ∧ s.listCnt.toNat < (lenField s.hdr).toNat))

/-- An answer that comes later has the effect of one that comes at once (R66, R202): a command that the transport leaves
waiting in BUS, then a step, is the command with the answer there. The list of answers is the model's (notes/assumptions/3.md). -/
def Obligations.BusAnswerMayComeLater : Prop :=
  ∀ (i : Instr) (s t : State) (answers : List (Option BusDraw)) (op : BusOp),
    s.transport = .draws (none :: answers) → exec i s = .next t → t.fsm = .bus op →
    configRefusal s.cfg = none → s.resetReq = none →
    step t = exec i { s with transport := .draws answers }

/-- R176: while FSM is FAULT a step consumes no word, makes no transaction and changes nothing, and this is no normal end of
a run. -/
def Obligations.FaultStateIsQuiescent : Prop :=
  ∀ s : State, configRefusal s.cfg = none → s.resetReq = none → s.fsm = .fault →
    step s = .next s ∧ s.EndsBadly ∧ ¬s.EndsNormally

/-- R175: a step leaves FAULT only by a reset, which clears FAULT_CODE and resets the four arrays. -/
def Obligations.OnlyResetLeavesFault : Prop :=
  ∀ s t : State, step s = .next t → s.fsm = .fault → t.fsm ≠ .fault →
    s.resetReq ≠ none ∧ t.fsm = .idle ∧ t.faultCode = 0x00 ∧
    ∀ i : Fin 8, t.mode[i] = 0 ∧ t.inv[i] = 0 ∧ t.out[i] = 0 ∧ t.inp[i] = 0

/-- R190 and R191: a reset outside BUS with a listed address, or none, sets every field of the controller in whatever state it
was, but for HDR and LISTBUF, which the rule leaves unspecified and this statement leaves open; ADDR is the address supplied
or 0x27, the other parameters stay, and no transaction is made. That the words still offered, the transport and the history
stay, and that the request is then done with, is the model's choice (notes/assumptions/7.md and 8.md). -/
def Obligations.ResetSetsEveryRegister : Prop :=
  ∀ (s : State) (addr : Option Nat),
    configRefusal s.cfg = none → s.resetReq = some ⟨addr⟩ → (∀ op, s.fsm ≠ .bus op) → addr.getD 0x27 ∈ addrList →
    ∃ (hdr : Word) (buf : Vector Byte 255), step s = .next
      { cfg := { s.cfg with addr := addr.getD 0x27 }
        mode := Vector.replicate 8 0, inv := Vector.replicate 8 0, out := Vector.replicate 8 0
        inp := Vector.replicate 8 0
        fsm := .idle, rsp := 0x0000, faultCode := 0x00
        hdr := hdr, listBuf := buf, listCnt := 0
        cmdIn := s.cmdIn, resetReq := none, transport := s.transport, hist := s.hist, k := 0 }

/-- R192: a reset while FSM is BUS is refused; in IDLE, RECV, EXEC and FAULT a reset to a listed address, or to none, is
legal, and it discards a partial command: FSM is IDLE and LISTCNT is 0. -/
def Obligations.ResetIsRefusedOnlyDuringBus : Prop :=
  ∀ (s : State) (req : ResetReq), configRefusal s.cfg = none → s.resetReq = some req →
    (∀ op, s.fsm = .bus op → step s = .refused .resetDuringBus) ∧
    (s.fsm = .idle ∨ s.fsm = .recv ∨ s.fsm = .exec ∨ s.fsm = .fault → req.addr.getD 0x27 ∈ addrList →
      ∃ t, step s = .next t ∧ t.fsm = .idle ∧ t.listCnt = 0)

/-- R6 and R182: an address outside ADDR_LIST, configured or supplied by a reset, and any number of hosts but one are
refused. The order of the checks is the model's choice (notes/assumptions/24.md). -/
def Obligations.UnsupportedConfigurationsAreRefused : Prop :=
  ∀ s : State,
    (s.cfg.hosts ≠ 1 → step s = .refused .notOneHost) ∧
    (s.cfg.hosts = 1 → s.cfg.addr ∉ [0x27, 0x26, 0x25, 0x24, 0x23, 0x22, 0x21, 0x20] → step s = .refused .addrNotListed) ∧
    ∀ a, configRefusal s.cfg = none → s.resetReq = some ⟨some a⟩ → (∀ op, s.fsm ≠ .bus op) →
      a ∉ [0x27, 0x26, 0x25, 0x24, 0x23, 0x22, 0x21, 0x20] → step s = .refused .addrNotListed

/-- R20 and R190: the values the spec gives for reset. -/
def Obligations.ResetState : Prop :=
  (∀ i : Fin 8, State.reset.mode[i] = 0 ∧ State.reset.inv[i] = 0 ∧ State.reset.out[i] = 0 ∧ State.reset.inp[i] = 0) ∧
  State.reset.fsm = .idle ∧ State.reset.rsp = 0x0000 ∧ State.reset.faultCode = 0x00 ∧ State.reset.listCnt = 0 ∧
  State.reset.cfg.addr = 0x27

/-- The invariant holds at reset. -/
def Obligations.ResetMeetsTheInvariant : Prop := State.reset.Inv

/-- The invariant is kept by every step (R25, R26, R27, R28, R121, R171, R172). -/
def Obligations.EveryStepKeepsTheInvariant : Prop :=
  ∀ s t : State, s.Inv → step s = .next t → t.Inv

/-- From a state that meets the invariant no step stops the machine: it goes on, or it is one of the configurations and
resets that the spec has a model refuse (R192, R6). -/
def Obligations.OnlyResetsAreRefused : Prop :=
  ∀ s : State, s.Inv → (∃ t, step s = .next t) ∨
    (∃ req op, s.resetReq = some req ∧ s.fsm = .bus op ∧ step s = .refused .resetDuringBus) ∨
    ∃ a, s.resetReq = some ⟨some a⟩ ∧ a ∉ addrList ∧ step s = .refused .addrNotListed

/-- R27: VALID and FAULT are never both 1, bits 15:10 are always 0, DATA is 0x00 when both are 0 and the fault code when
FAULT is 1. -/
def Obligations.ResponseShape : Prop :=
  ∀ s : State, Reachable s →
    ¬(rspValid s.rsp = true ∧ rspFaulted s.rsp = true) ∧ s.rsp.extractLsb' 10 6 = 0 ∧
    (rspValid s.rsp = false → rspFaulted s.rsp = false → rspData s.rsp = 0x00) ∧
    (rspFaulted s.rsp = true → rspData s.rsp = s.faultCode ∧ s.faultCode ≠ 0x00 ∧ s.fsm = .fault) ∧
    (s.fsm = .fault → rspFaulted s.rsp = true)

/-- R31: the configuration changes only by a reset, and then only ADDR. -/
def Obligations.ConfigurationIsFixed : Prop :=
  ∀ s t : State, step s = .next t →
    (s.resetReq = none → t.cfg = s.cfg) ∧
    t.cfg = { s.cfg with addr := t.cfg.addr } ∧ t.cfg.addr ∈ addrList

/-- R29: HDR, LISTBUF and LISTCNT carry no meaning from one command to the next, so what they hold after reset has no
effect: states that differ only in them step alike. -/
def Obligations.HiddenRegistersCarryNoMeaning : Prop :=
  ∀ s t : State, SameButHidden s t → OutcomesSameButHidden (step s) (step t)

/-- R203: IDLE with no word offered and no reset asked for is a state in which the machine rests. -/
def Obligations.NormalEndIsStable : Prop :=
  ∀ s : State, configRefusal s.cfg = none → s.EndsNormally → step s = .next s

/-! ### The reference device -/

/-- R76: the reference device is always present and never fails, returns what was last written to OUTPUT_PORT, INVERSION and
CONFIGURATION, and returns PINLVL XOR DEV_INV for INPUT_PORT. -/
def Obligations.ReferenceDeviceRemembersWrites : Prop :=
  ∀ (dev : RefDevice) (r : RemoteReg) (v : Byte), r ≠ .inputPort →
    (∀ x, (dev.answer x).1.ok = true ∧ (dev.answer x).1.present = 1) ∧
    ((dev.answer (.read .outputPort)).1.byte = dev.out ∧ (dev.answer (.read .inversion)).1.byte = dev.inv ∧
      (dev.answer (.read .configuration)).1.byte = dev.cfg ∧
      (dev.answer (.read .inputPort)).1.byte = dev.pinLvl ^^^ dev.inv) ∧
    ((dev.answer (.write r v)).2.answer (.read r)).1.byte = v ∧
    (∀ r', r' ≠ r → r' ≠ .inputPort →
      ((dev.answer (.write r v)).2.answer (.read r')).1.byte = (dev.answer (.read r')).1.byte) ∧
    ((dev.answer (.write r v)).2.answer (.read .inputPort)).1.byte = dev.pinLvl ^^^ (if r = .inversion then v else dev.inv) ∧
    (dev.answer (.read r)).2 = dev
end

