-- ==== Sys2Proof/Laws/Decode.lean ====
section
/-!
SUPPORT. The decoder and the encoder, one lemma per definition: the fields of a header word, the legal headers, the payload
words.
-/

namespace Sys2Proof

/-! ### Opcodes -/

/-- An OP field selects an opcode exactly when it is that opcode's code (R86). -/
theorem Opcode.ofCode_eq_some (c : BitVec 5) (op : Opcode) : Opcode.ofCode c = some op ↔ c = op.code := by
  revert c op
  have : ∀ c : BitVec 5, ∀ op ∈ Opcode.all, Opcode.ofCode c = some op ↔ c = op.code := by decide
  intro c op
  exact this c op (by cases op <;> decide)

theorem Opcode.ofCode_code (op : Opcode) : Opcode.ofCode op.code = some op := (Opcode.ofCode_eq_some _ _).2 rfl

/-- A command of an opcode has that opcode (R86). -/
theorem Opcode.opcode_command (op : Opcode) (pin val : Byte) (list : List Byte) :
    (op.command pin val list).opcode = op := by cases op <;> rfl

/-- A command is built back from its opcode and its operands. -/
theorem Instr.command_opcode (i : Instr) : i.opcode.command i.pinOperand i.valOperand i.listOperand = i := by
  cases i <;> rfl

/-! ### The fields of a header word (R81) -/

theorem opField_headerWord (op : BitVec 5) (pin val len : Byte) : opField (headerWord op pin val len) = op := by
  apply BitVec.eq_of_getLsbD_eq
  intro j hj
  simp [opField, headerWord, hj, show j < 8 by omega, show j < 16 by omega, show j < 24 by omega, show j < 32 by omega]

theorem rsvField_headerWord (op : BitVec 5) (pin val len : Byte) : rsvField (headerWord op pin val len) = 0 := by
  apply BitVec.eq_of_getLsbD_eq
  intro j hj
  simp [rsvField, headerWord, hj, show 5 + j < 8 by omega, show 5 + j < 16 by omega, show 5 + j < 24 by omega]

theorem pinField_headerWord (op : BitVec 5) (pin val len : Byte) : pinField (headerWord op pin val len) = pin := by
  apply BitVec.eq_of_getLsbD_eq
  intro j hj
  simp [pinField, headerWord, hj, show 8 + j < 32 by omega, show 8 + j < 16 by omega, show 8 + j < 24 by omega,
    BitVec.getLsbD_of_ge op (8 + j) (by omega)]

theorem valField_headerWord (op : BitVec 5) (pin val len : Byte) : valField (headerWord op pin val len) = val := by
  apply BitVec.eq_of_getLsbD_eq
  intro j hj
  simp [valField, headerWord, hj, show 16 + j < 32 by omega, show ¬(16 + j < 8) by omega, show 16 + j < 24 by omega,
    BitVec.getLsbD_of_ge op (16 + j) (by omega), BitVec.getLsbD_of_ge pin (16 + j - 8) (by omega)]

theorem lenField_headerWord (op : BitVec 5) (pin val len : Byte) : lenField (headerWord op pin val len) = len := by
  apply BitVec.eq_of_getLsbD_eq
  intro j hj
  simp [lenField, headerWord, hj, show 24 + j < 32 by omega, show ¬(24 + j < 8) by omega, show ¬(24 + j < 16) by omega,
    BitVec.getLsbD_of_ge op (24 + j) (by omega), BitVec.getLsbD_of_ge pin (24 + j - 8) (by omega),
    BitVec.getLsbD_of_ge val (24 + j - 16) (by omega)]

/-- A word with RSV zero is the header word of its fields. -/
theorem headerWord_fields (h : Word) (hr : rsvField h = 0) :
    h = headerWord (opField h) (pinField h) (valField h) (lenField h) := by
  apply BitVec.eq_of_getLsbD_eq
  intro j hj
  have hz : ∀ k, k < 3 → h.getLsbD (5 + k) = false := by
    intro k hk
    have := congrArg (fun v => v.getLsbD k) hr
    simpa [rsvField, hk] using this
  simp only [headerWord, opField, pinField, valField, lenField, BitVec.getLsbD_or, BitVec.getLsbD_shiftLeft,
    BitVec.getLsbD_setWidth, BitVec.getLsbD_extractLsb']
  by_cases h5 : j < 5
  · simp [h5, hj, show j < 8 by omega, show j < 16 by omega, show j < 24 by omega]
  · by_cases h8 : j < 8
    · have := hz (j - 5) (by omega)
      rw [show 5 + (j - 5) = j by omega] at this
      simp [this, h5, h8, show j < 16 by omega, show j < 24 by omega]
    · by_cases h16 : j < 16
      · simp [h5, h8, h16, hj, show j < 24 by omega, show j - 8 < 32 by omega, show j - 8 < 8 by omega,
          show 8 + (j - 8) = j by omega]
      · by_cases h24 : j < 24
        · simp [h5, h8, h16, h24, hj, show j - 16 < 32 by omega, show j - 16 < 8 by omega, show ¬(j - 8 < 8) by omega,
            show 16 + (j - 16) = j by omega]
        · simp [h5, h8, h16, h24, hj, show j - 24 < 32 by omega, show j - 24 < 8 by omega, show ¬(j - 8 < 8) by omega,
            show ¬(j - 16 < 8) by omega, show 24 + (j - 24) = j by omega]

/-- Which fields a format leaves unused, when RSV is zero: the four tests of R89 as field tests (R82). -/
theorem unusedZero_iff (f : Format) (h : Word) (hr : rsvField h = 0) :
    unusedZero f h = true ↔
      (f ≠ .p → f ≠ .pv → pinField h = 0) ∧ (f ≠ .pv → valField h = 0) ∧ (f ≠ .l → lenField h = 0) := by
  have slice : ∀ (lo n : Nat), h.extractLsb' lo n = 0 ↔ ∀ j, lo ≤ j → j < lo + n → h.getLsbD j = false := by
    intro lo n
    constructor
    · intro h0 j h1 h2
      have := congrArg (fun v => v.getLsbD (j - lo)) h0
      simpa [show j - lo < n by omega, show lo + (j - lo) = j by omega] using this
    · intro hb
      apply BitVec.eq_of_getLsbD_eq
      intro j hj
      simpa [hj] using hb (lo + j) (by omega) (by omega)
  have hz : ∀ j, 5 ≤ j → j < 8 → h.getLsbD j = false := (slice 5 3).1 hr
  have hp : pinField h = 0 ↔ ∀ j, 8 ≤ j → j < 16 → h.getLsbD j = false := slice 8 8
  have hv : valField h = 0 ↔ ∀ j, 16 ≤ j → j < 24 → h.getLsbD j = false := slice 16 8
  have hl : lenField h = 0 ↔ ∀ j, 24 ≤ j → j < 32 → h.getLsbD j = false := slice 24 8
  rw [hp, hv, hl]
  have merge : ∀ a b c, a ≤ b → b ≤ c → ((∀ j, a ≤ j → j < c → h.getLsbD j = false) ↔
      (∀ j, a ≤ j → j < b → h.getLsbD j = false) ∧ ∀ j, b ≤ j → j < c → h.getLsbD j = false) := by
    intro a b c hab hbc
    constructor
    · exact fun H => ⟨fun j h1 h2 => H j h1 (by omega), fun j h1 h2 => H j (by omega) h2⟩
    · rintro ⟨H1, H2⟩ j h1 h2
      by_cases hj : j < b
      · exact H1 j h1 hj
      · exact H2 j (by omega) h2
  cases f
  · rw [show unusedZero .n h = (h.extractLsb' 5 27 == 0) from rfl, beq_iff_eq, slice, merge 5 8 32 (by omega) (by omega),
      merge 8 16 32 (by omega) (by omega), merge 16 24 32 (by omega) (by omega)]
    simp only [ne_eq, reduceCtorEq, not_false_eq_true, true_imp_iff]
    exact ⟨fun H => H.2, fun H => ⟨hz, H⟩⟩
  · rw [show unusedZero .p h = (h.extractLsb' 16 16 == 0) from rfl, beq_iff_eq, slice, merge 16 24 32 (by omega) (by omega)]
    simp
  · rw [show unusedZero .pv h = (h.extractLsb' 24 8 == 0) from rfl, beq_iff_eq, slice]
    simp
  · rw [show unusedZero .l h = (h.extractLsb' 5 19 == 0) from rfl, beq_iff_eq, slice, merge 5 8 24 (by omega) (by omega),
      merge 8 16 24 (by omega) (by omega)]
    simp only [ne_eq, reduceCtorEq, not_false_eq_true, true_imp_iff, not_true_eq_false, false_imp_iff, and_true]
    exact ⟨fun H => H.2, fun H => ⟨hz, H⟩⟩

/-! ### Headers -/

/-- What a legal header is (R87, R89). -/
theorem decodeHeader_eq_ok (h : Word) (op : Opcode) :
    decodeHeader h = .ok op ↔ rsvField h = 0 ∧ opField h = op.code ∧ unusedZero op.format h = true := by
  unfold decodeHeader
  by_cases hr : rsvField h = 0
  · simp only [hr, bne_self_eq_false, Bool.false_eq_true, ↓reduceIte, true_and]
    cases hc : Opcode.ofCode (opField h) with
    | none =>
      constructor
      · intro he; exact nomatch he
      · rintro ⟨ho, _⟩
        rw [ho, Opcode.ofCode_code] at hc
        exact nomatch hc
    | some op' =>
      have ho := (Opcode.ofCode_eq_some _ _).1 hc
      by_cases hu : unusedZero op'.format h = true
      · simp only [hu, ↓reduceIte, Except.ok.injEq]
        constructor
        · rintro rfl; exact ⟨ho, hu⟩
        · rintro ⟨ho', _⟩
          have : some op' = some op := by rw [← hc, ho', Opcode.ofCode_code]
          exact Option.some.inj this
      · simp only [hu, Bool.false_eq_true, ↓reduceIte, reduceCtorEq, false_iff, not_and]
        rintro ho' hu'
        have : some op' = some op := by rw [← hc, ho', Opcode.ofCode_code]
        cases this
        exact hu hu'
  · have : (rsvField h != 0) = true := by simpa using hr
    simp only [this, ↓reduceIte]
    constructor
    · intro he; exact nomatch he
    · intro he; exact absurd he.1 hr

/-- The header the encoder writes is legal and selects the command's opcode (R82, R86). -/
theorem decodeHeader_header (i : Instr) : decodeHeader i.header = .ok i.opcode := by
  rw [decodeHeader_eq_ok]
  refine ⟨rsvField_headerWord .., opField_headerWord .., ?_⟩
  refine (unusedZero_iff _ i.header (rsvField_headerWord ..)).2 ?_
  unfold Instr.header
  rw [pinField_headerWord, valField_headerWord, lenField_headerWord]
  cases i <;> simp [Instr.opcode, Opcode.format, Instr.pinOperand, Instr.valOperand, Instr.listOperand]

/-- How many payload words follow the header the encoder writes (R85). -/
theorem payloadLen_header (i : Instr) (h : i.wellFormed = true) : payloadLen i.header = i.listOperand.length := by
  have hl : lenField i.header = BitVec.ofNat 8 i.listOperand.length := lenField_headerWord ..
  rw [payloadLen, decodeHeader_header]
  have fits : ∀ list : List Byte, listFits list = true → list.length % 256 = list.length := by
    intro list hf
    have : list.length ≤ 255 := by simpa [listFits] using hf
    omega
  cases i <;> simp only [Instr.opcode, Opcode.format, reduceCtorEq, ↓reduceIte, hl, Instr.listOperand, List.length_nil,
    BitVec.toNat_ofNat] <;> exact fits _ h

/-- A legal header's payload length is its LEN field in format L and zero else (R85). -/
theorem payloadLen_of_ok {h : Word} {op : Opcode} (ho : decodeHeader h = .ok op) :
    payloadLen h = if op.format = .l then (lenField h).toNat else 0 := by simp [payloadLen, ho]

/-- A header has no more than LEN payload words (R85). -/
theorem payloadLen_le (h : Word) : payloadLen h ≤ (lenField h).toNat := by
  unfold payloadLen
  split
  · split <;> omega
  · omega

/-! ### Payload words -/

@[simp] theorem payloadElement_payloadWord (e : Byte) : payloadElement (payloadWord e) = e := by
  apply BitVec.eq_of_getLsbD_eq
  intro j hj
  simp [payloadElement, payloadWord, hj]
  omega

@[simp] theorem payloadLegal_payloadWord (e : Byte) : payloadLegal (payloadWord e) = true := by
  have : (payloadWord e).extractLsb' 8 24 = 0 := by
    apply BitVec.eq_of_getLsbD_eq
    intro j hj
    simp [payloadWord]
  simp [payloadLegal, this]

/-- A legal payload word is the one of its element (R85). -/
theorem payloadWord_payloadElement {w : Word} (h : payloadLegal w = true) : payloadWord (payloadElement w) = w := by
  have h0 : w.extractLsb' 8 24 = 0 := by simpa [payloadLegal] using h
  apply BitVec.eq_of_getLsbD_eq
  intro j hj
  by_cases h8 : j < 8
  · simp [payloadWord, payloadElement, hj, h8]
  · have := congrArg (fun v => v.getLsbD (j - 8)) h0
    simp [show j - 8 < 24 by omega, show 8 + (j - 8) = j by omega] at this
    simp [payloadWord, payloadElement, h8, this]

/-- The payload words of a list are taken as that list (R85). -/
theorem takePayload_payloadWords (list : List Byte) (rest : List Word) :
    takePayload list.length (list.map payloadWord ++ rest) = .ok (list, rest) := by
  induction list with
  | nil => rfl
  | cons e es ih => simp [takePayload, ih]

/-- What was taken are the payload words of as many elements as were asked for (R85). -/
theorem takePayload_ok {n : Nat} {ws rest : List Word} {list : List Byte} (h : takePayload n ws = .ok (list, rest)) :
    ws = list.map payloadWord ++ rest ∧ list.length = n := by
  induction n generalizing ws list with
  | zero =>
    simp only [takePayload, Except.ok.injEq, Prod.mk.injEq] at h
    obtain ⟨rfl, rfl⟩ := h
    simp
  | succ n ih =>
    cases ws with
    | nil => exact nomatch h
    | cons w ws =>
      simp only [takePayload] at h
      split at h
      · rename_i hw
        split at h
        · rename_i es r hes
          simp only [Except.ok.injEq, Prod.mk.injEq] at h
          obtain ⟨rfl, rfl⟩ := h
          obtain ⟨h1, h2⟩ := ih hes
          simp [payloadWord_payloadElement hw, ← h1, h2]
        · exact nomatch h
      · exact nomatch h

/-! ### The stream -/

/-- What the decoder accepts: a legal header, then as many legal payload words as it announces (R89). -/
theorem decode_ok {ws rest : List Word} {i : Instr} (h : decode ws = .ok (i, rest)) :
    ∃ hd op list, decodeHeader hd = .ok op ∧ ws = hd :: (list.map payloadWord ++ rest) ∧ list.length = payloadLen hd ∧
      i = op.command (pinField hd) (valField hd) list := by
  cases ws with
  | nil => exact nomatch h
  | cons hd ws =>
    simp only [decode] at h
    split at h
    · exact nomatch h
    · rename_i op ho
      split at h
      · exact nomatch h
      · rename_i list r ht
        simp only [Except.ok.injEq, Prod.mk.injEq] at h
        obtain ⟨rfl, rfl⟩ := h
        obtain ⟨h1, h2⟩ := takePayload_ok ht
        exact ⟨hd, op, list, ho, by rw [h1], h2, rfl⟩

/-- The list of a command of an opcode: the elements that came, in format L, and none else (R85). -/
theorem Opcode.listOperand_command (op : Opcode) (pin val : Byte) (list : List Byte) :
    (op.command pin val list).listOperand = if op.format = .l then list else [] := by cases op <;> rfl

end Sys2Proof
end

