-- ==== Sys2Proof/Laws/State.lean ====
section
/-!
SUPPORT. The field lemmas of the named updates of the state: what each leaves in each field. A later proof cites these by
simp and unfolds no record update.
-/

namespace Sys2Proof.Machine

/-! `respond`: RSP, FSM and the command index. -/
@[simp] theorem State.respond_cfg (s : State) (v : Bool) (d : Byte) : (s.respond v d).cfg = s.cfg := rfl
@[simp] theorem State.respond_mode (s : State) (v : Bool) (d : Byte) : (s.respond v d).mode = s.mode := rfl
@[simp] theorem State.respond_inv (s : State) (v : Bool) (d : Byte) : (s.respond v d).inv = s.inv := rfl
@[simp] theorem State.respond_out (s : State) (v : Bool) (d : Byte) : (s.respond v d).out = s.out := rfl
@[simp] theorem State.respond_inp (s : State) (v : Bool) (d : Byte) : (s.respond v d).inp = s.inp := rfl
@[simp] theorem State.respond_fsm (s : State) (v : Bool) (d : Byte) : (s.respond v d).fsm = .idle := rfl
@[simp] theorem State.respond_rsp (s : State) (v : Bool) (d : Byte) : (s.respond v d).rsp = rspOf v d := rfl
@[simp] theorem State.respond_faultCode (s : State) (v : Bool) (d : Byte) : (s.respond v d).faultCode = s.faultCode := rfl
@[simp] theorem State.respond_hdr (s : State) (v : Bool) (d : Byte) : (s.respond v d).hdr = s.hdr := rfl
@[simp] theorem State.respond_listBuf (s : State) (v : Bool) (d : Byte) : (s.respond v d).listBuf = s.listBuf := rfl
@[simp] theorem State.respond_listCnt (s : State) (v : Bool) (d : Byte) : (s.respond v d).listCnt = s.listCnt := rfl
@[simp] theorem State.respond_cmdIn (s : State) (v : Bool) (d : Byte) : (s.respond v d).cmdIn = s.cmdIn := rfl
@[simp] theorem State.respond_resetReq (s : State) (v : Bool) (d : Byte) : (s.respond v d).resetReq = s.resetReq := rfl
@[simp] theorem State.respond_transport (s : State) (v : Bool) (d : Byte) : (s.respond v d).transport = s.transport := rfl
@[simp] theorem State.respond_hist (s : State) (v : Bool) (d : Byte) : (s.respond v d).hist = s.hist := rfl
@[simp] theorem State.respond_k (s : State) (v : Bool) (d : Byte) : (s.respond v d).k = s.k + 1 := rfl

/-! `noop`: RSP, FSM and the command index. -/
@[simp] theorem State.noop_cfg (s : State) : (s.noop).cfg = s.cfg := rfl
@[simp] theorem State.noop_mode (s : State) : (s.noop).mode = s.mode := rfl
@[simp] theorem State.noop_inv (s : State) : (s.noop).inv = s.inv := rfl
@[simp] theorem State.noop_out (s : State) : (s.noop).out = s.out := rfl
@[simp] theorem State.noop_inp (s : State) : (s.noop).inp = s.inp := rfl
@[simp] theorem State.noop_fsm (s : State) : (s.noop).fsm = .idle := rfl
@[simp] theorem State.noop_rsp (s : State) : (s.noop).rsp = 0x0000 := rfl
@[simp] theorem State.noop_faultCode (s : State) : (s.noop).faultCode = s.faultCode := rfl
@[simp] theorem State.noop_hdr (s : State) : (s.noop).hdr = s.hdr := rfl
@[simp] theorem State.noop_listBuf (s : State) : (s.noop).listBuf = s.listBuf := rfl
@[simp] theorem State.noop_listCnt (s : State) : (s.noop).listCnt = s.listCnt := rfl
@[simp] theorem State.noop_cmdIn (s : State) : (s.noop).cmdIn = s.cmdIn := rfl
@[simp] theorem State.noop_resetReq (s : State) : (s.noop).resetReq = s.resetReq := rfl
@[simp] theorem State.noop_transport (s : State) : (s.noop).transport = s.transport := rfl
@[simp] theorem State.noop_hist (s : State) : (s.noop).hist = s.hist := rfl
@[simp] theorem State.noop_k (s : State) : (s.noop).k = s.k + 1 := rfl

/-! `raiseFault`: FAULT_CODE, RSP and FSM. -/
@[simp] theorem State.raiseFault_cfg (s : State) (c : FaultCause) : (s.raiseFault c).cfg = s.cfg := rfl
@[simp] theorem State.raiseFault_mode (s : State) (c : FaultCause) : (s.raiseFault c).mode = s.mode := rfl
@[simp] theorem State.raiseFault_inv (s : State) (c : FaultCause) : (s.raiseFault c).inv = s.inv := rfl
@[simp] theorem State.raiseFault_out (s : State) (c : FaultCause) : (s.raiseFault c).out = s.out := rfl
@[simp] theorem State.raiseFault_inp (s : State) (c : FaultCause) : (s.raiseFault c).inp = s.inp := rfl
@[simp] theorem State.raiseFault_fsm (s : State) (c : FaultCause) : (s.raiseFault c).fsm = .fault := rfl
@[simp] theorem State.raiseFault_rsp (s : State) (c : FaultCause) : (s.raiseFault c).rsp = rspFault c.code := rfl
@[simp] theorem State.raiseFault_faultCode (s : State) (c : FaultCause) : (s.raiseFault c).faultCode = c.code := rfl
@[simp] theorem State.raiseFault_hdr (s : State) (c : FaultCause) : (s.raiseFault c).hdr = s.hdr := rfl
@[simp] theorem State.raiseFault_listBuf (s : State) (c : FaultCause) : (s.raiseFault c).listBuf = s.listBuf := rfl
@[simp] theorem State.raiseFault_listCnt (s : State) (c : FaultCause) : (s.raiseFault c).listCnt = s.listCnt := rfl
@[simp] theorem State.raiseFault_cmdIn (s : State) (c : FaultCause) : (s.raiseFault c).cmdIn = s.cmdIn := rfl
@[simp] theorem State.raiseFault_resetReq (s : State) (c : FaultCause) : (s.raiseFault c).resetReq = s.resetReq := rfl
@[simp] theorem State.raiseFault_transport (s : State) (c : FaultCause) : (s.raiseFault c).transport = s.transport := rfl
@[simp] theorem State.raiseFault_hist (s : State) (c : FaultCause) : (s.raiseFault c).hist = s.hist := rfl
@[simp] theorem State.raiseFault_k (s : State) (c : FaultCause) : (s.raiseFault c).k = s.k := rfl

/-! `refreshInp`: INP. -/
@[simp] theorem State.refreshInp_cfg (s : State) (b : Byte) : (s.refreshInp b).cfg = s.cfg := rfl
@[simp] theorem State.refreshInp_mode (s : State) (b : Byte) : (s.refreshInp b).mode = s.mode := rfl
@[simp] theorem State.refreshInp_inv (s : State) (b : Byte) : (s.refreshInp b).inv = s.inv := rfl
@[simp] theorem State.refreshInp_out (s : State) (b : Byte) : (s.refreshInp b).out = s.out := rfl
@[simp] theorem State.refreshInp_inp (s : State) (b : Byte) : (s.refreshInp b).inp = unpackBits b := rfl
@[simp] theorem State.refreshInp_fsm (s : State) (b : Byte) : (s.refreshInp b).fsm = s.fsm := rfl
@[simp] theorem State.refreshInp_rsp (s : State) (b : Byte) : (s.refreshInp b).rsp = s.rsp := rfl
@[simp] theorem State.refreshInp_faultCode (s : State) (b : Byte) : (s.refreshInp b).faultCode = s.faultCode := rfl
@[simp] theorem State.refreshInp_hdr (s : State) (b : Byte) : (s.refreshInp b).hdr = s.hdr := rfl
@[simp] theorem State.refreshInp_listBuf (s : State) (b : Byte) : (s.refreshInp b).listBuf = s.listBuf := rfl
@[simp] theorem State.refreshInp_listCnt (s : State) (b : Byte) : (s.refreshInp b).listCnt = s.listCnt := rfl
@[simp] theorem State.refreshInp_cmdIn (s : State) (b : Byte) : (s.refreshInp b).cmdIn = s.cmdIn := rfl
@[simp] theorem State.refreshInp_resetReq (s : State) (b : Byte) : (s.refreshInp b).resetReq = s.resetReq := rfl
@[simp] theorem State.refreshInp_transport (s : State) (b : Byte) : (s.refreshInp b).transport = s.transport := rfl
@[simp] theorem State.refreshInp_hist (s : State) (b : Byte) : (s.refreshInp b).hist = s.hist := rfl
@[simp] theorem State.refreshInp_k (s : State) (b : Byte) : (s.refreshInp b).k = s.k := rfl

/-! `logEvent`: the bus history. -/
@[simp] theorem State.logEvent_cfg (s : State) (e : BusEvent) : (s.logEvent e).cfg = s.cfg := rfl
@[simp] theorem State.logEvent_mode (s : State) (e : BusEvent) : (s.logEvent e).mode = s.mode := rfl
@[simp] theorem State.logEvent_inv (s : State) (e : BusEvent) : (s.logEvent e).inv = s.inv := rfl
@[simp] theorem State.logEvent_out (s : State) (e : BusEvent) : (s.logEvent e).out = s.out := rfl
@[simp] theorem State.logEvent_inp (s : State) (e : BusEvent) : (s.logEvent e).inp = s.inp := rfl
@[simp] theorem State.logEvent_fsm (s : State) (e : BusEvent) : (s.logEvent e).fsm = s.fsm := rfl
@[simp] theorem State.logEvent_rsp (s : State) (e : BusEvent) : (s.logEvent e).rsp = s.rsp := rfl
@[simp] theorem State.logEvent_faultCode (s : State) (e : BusEvent) : (s.logEvent e).faultCode = s.faultCode := rfl
@[simp] theorem State.logEvent_hdr (s : State) (e : BusEvent) : (s.logEvent e).hdr = s.hdr := rfl
@[simp] theorem State.logEvent_listBuf (s : State) (e : BusEvent) : (s.logEvent e).listBuf = s.listBuf := rfl
@[simp] theorem State.logEvent_listCnt (s : State) (e : BusEvent) : (s.logEvent e).listCnt = s.listCnt := rfl
@[simp] theorem State.logEvent_cmdIn (s : State) (e : BusEvent) : (s.logEvent e).cmdIn = s.cmdIn := rfl
@[simp] theorem State.logEvent_resetReq (s : State) (e : BusEvent) : (s.logEvent e).resetReq = s.resetReq := rfl
@[simp] theorem State.logEvent_transport (s : State) (e : BusEvent) : (s.logEvent e).transport = s.transport := rfl
@[simp] theorem State.logEvent_hist (s : State) (e : BusEvent) : (s.logEvent e).hist = s.hist ++ [e] := rfl
@[simp] theorem State.logEvent_k (s : State) (e : BusEvent) : (s.logEvent e).k = s.k := rfl

/-! `takeWord`: the stream, LISTBUF and LISTCNT. -/
@[simp] theorem State.takeWord_cfg (s : State) (w : Word) (rest : List Word) : (s.takeWord w rest).cfg = s.cfg := rfl
@[simp] theorem State.takeWord_mode (s : State) (w : Word) (rest : List Word) : (s.takeWord w rest).mode = s.mode := rfl
@[simp] theorem State.takeWord_inv (s : State) (w : Word) (rest : List Word) : (s.takeWord w rest).inv = s.inv := rfl
@[simp] theorem State.takeWord_out (s : State) (w : Word) (rest : List Word) : (s.takeWord w rest).out = s.out := rfl
@[simp] theorem State.takeWord_inp (s : State) (w : Word) (rest : List Word) : (s.takeWord w rest).inp = s.inp := rfl
@[simp] theorem State.takeWord_fsm (s : State) (w : Word) (rest : List Word) : (s.takeWord w rest).fsm = s.fsm := rfl
@[simp] theorem State.takeWord_rsp (s : State) (w : Word) (rest : List Word) : (s.takeWord w rest).rsp = s.rsp := rfl
@[simp] theorem State.takeWord_faultCode (s : State) (w : Word) (rest : List Word) : (s.takeWord w rest).faultCode = s.faultCode := rfl
@[simp] theorem State.takeWord_hdr (s : State) (w : Word) (rest : List Word) : (s.takeWord w rest).hdr = s.hdr := rfl
@[simp] theorem State.takeWord_listBuf (s : State) (w : Word) (rest : List Word) : (s.takeWord w rest).listBuf = storeEntry s.listBuf s.listCnt (payloadElement w) := rfl
@[simp] theorem State.takeWord_listCnt (s : State) (w : Word) (rest : List Word) : (s.takeWord w rest).listCnt = s.listCnt + 1 := rfl
@[simp] theorem State.takeWord_cmdIn (s : State) (w : Word) (rest : List Word) : (s.takeWord w rest).cmdIn = rest := rfl
@[simp] theorem State.takeWord_resetReq (s : State) (w : Word) (rest : List Word) : (s.takeWord w rest).resetReq = s.resetReq := rfl
@[simp] theorem State.takeWord_transport (s : State) (w : Word) (rest : List Word) : (s.takeWord w rest).transport = s.transport := rfl
@[simp] theorem State.takeWord_hist (s : State) (w : Word) (rest : List Word) : (s.takeWord w rest).hist = s.hist := rfl
@[simp] theorem State.takeWord_k (s : State) (w : Word) (rest : List Word) : (s.takeWord w rest).k = s.k := rfl

/-! `construct`: every field of the controller. -/
@[simp] theorem State.construct_cfg (s : State) (a : Option Nat) : (s.construct a).cfg = { s.cfg with addr := a.getD defaultAddr } := rfl
@[simp] theorem State.construct_mode (s : State) (a : Option Nat) : (s.construct a).mode = State.reset.mode := rfl
@[simp] theorem State.construct_inv (s : State) (a : Option Nat) : (s.construct a).inv = State.reset.inv := rfl
@[simp] theorem State.construct_out (s : State) (a : Option Nat) : (s.construct a).out = State.reset.out := rfl
@[simp] theorem State.construct_inp (s : State) (a : Option Nat) : (s.construct a).inp = State.reset.inp := rfl
@[simp] theorem State.construct_fsm (s : State) (a : Option Nat) : (s.construct a).fsm = State.reset.fsm := rfl
@[simp] theorem State.construct_rsp (s : State) (a : Option Nat) : (s.construct a).rsp = State.reset.rsp := rfl
@[simp] theorem State.construct_faultCode (s : State) (a : Option Nat) : (s.construct a).faultCode = State.reset.faultCode := rfl
@[simp] theorem State.construct_hdr (s : State) (a : Option Nat) : (s.construct a).hdr = State.reset.hdr := rfl
@[simp] theorem State.construct_listBuf (s : State) (a : Option Nat) : (s.construct a).listBuf = State.reset.listBuf := rfl
@[simp] theorem State.construct_listCnt (s : State) (a : Option Nat) : (s.construct a).listCnt = State.reset.listCnt := rfl
@[simp] theorem State.construct_cmdIn (s : State) (a : Option Nat) : (s.construct a).cmdIn = s.cmdIn := rfl
@[simp] theorem State.construct_resetReq (s : State) (a : Option Nat) : (s.construct a).resetReq = State.reset.resetReq := rfl
@[simp] theorem State.construct_transport (s : State) (a : Option Nat) : (s.construct a).transport = s.transport := rfl
@[simp] theorem State.construct_hist (s : State) (a : Option Nat) : (s.construct a).hist = s.hist := rfl
@[simp] theorem State.construct_k (s : State) (a : Option Nat) : (s.construct a).k = State.reset.k := rfl

/-! `setCached`: one cache array. -/
@[simp] theorem State.setCached_cfg (s : State) (a : CacheArray) (v : PinArray) : (s.setCached a v).cfg = s.cfg := by cases a <;> rfl
@[simp] theorem State.setCached_inp (s : State) (a : CacheArray) (v : PinArray) : (s.setCached a v).inp = s.inp := by cases a <;> rfl
@[simp] theorem State.setCached_fsm (s : State) (a : CacheArray) (v : PinArray) : (s.setCached a v).fsm = s.fsm := by cases a <;> rfl
@[simp] theorem State.setCached_rsp (s : State) (a : CacheArray) (v : PinArray) : (s.setCached a v).rsp = s.rsp := by cases a <;> rfl
@[simp] theorem State.setCached_faultCode (s : State) (a : CacheArray) (v : PinArray) : (s.setCached a v).faultCode = s.faultCode := by cases a <;> rfl
@[simp] theorem State.setCached_hdr (s : State) (a : CacheArray) (v : PinArray) : (s.setCached a v).hdr = s.hdr := by cases a <;> rfl
@[simp] theorem State.setCached_listBuf (s : State) (a : CacheArray) (v : PinArray) : (s.setCached a v).listBuf = s.listBuf := by cases a <;> rfl
@[simp] theorem State.setCached_listCnt (s : State) (a : CacheArray) (v : PinArray) : (s.setCached a v).listCnt = s.listCnt := by cases a <;> rfl
@[simp] theorem State.setCached_cmdIn (s : State) (a : CacheArray) (v : PinArray) : (s.setCached a v).cmdIn = s.cmdIn := by cases a <;> rfl
@[simp] theorem State.setCached_resetReq (s : State) (a : CacheArray) (v : PinArray) : (s.setCached a v).resetReq = s.resetReq := by cases a <;> rfl
@[simp] theorem State.setCached_transport (s : State) (a : CacheArray) (v : PinArray) : (s.setCached a v).transport = s.transport := by cases a <;> rfl
@[simp] theorem State.setCached_hist (s : State) (a : CacheArray) (v : PinArray) : (s.setCached a v).hist = s.hist := by cases a <;> rfl
@[simp] theorem State.setCached_k (s : State) (a : CacheArray) (v : PinArray) : (s.setCached a v).k = s.k := by cases a <;> rfl

/-! A cache array read after an update. -/

@[simp] theorem State.cached_setCached_self (s : State) (a : CacheArray) (v : PinArray) :
    (s.setCached a v).cached a = v := by cases a <;> rfl

theorem State.cached_setCached_ne (s : State) {a a' : CacheArray} (v : PinArray) (h : a' ≠ a) :
    (s.setCached a v).cached a' = s.cached a' := by cases a <;> cases a' <;> first | rfl | exact absurd rfl h

@[simp] theorem State.setCached_mode (s : State) (v : PinArray) : s.setCached .mode v = { s with mode := v } := rfl
@[simp] theorem State.setCached_inv (s : State) (v : PinArray) : s.setCached .inv v = { s with inv := v } := rfl
@[simp] theorem State.setCached_out (s : State) (v : PinArray) : s.setCached .out v = { s with out := v } := rfl
@[simp] theorem State.cached_mode (s : State) : s.cached .mode = s.mode := rfl
@[simp] theorem State.cached_inv (s : State) : s.cached .inv = s.inv := rfl
@[simp] theorem State.cached_out (s : State) : s.cached .out = s.out := rfl

theorem State.cached_congr {s t : State} (hm : t.mode = s.mode) (hi : t.inv = s.inv) (ho : t.out = s.out)
    (a : CacheArray) : t.cached a = s.cached a := by cases a <;> assumption

end Sys2Proof.Machine
end

