-- ==== Sys2Proof/Laws/Ops.lean ====
section
/-!
SUPPORT. What each shared operation can do, said once: the outstanding transaction, the flush, the set commands, the
commands as a whole, and one step.
-/

namespace Sys2Proof.Machine

/-! ### Responses -/

@[simp] theorem rspOf_true (d : Byte) : rspOf true d = 0x0100 ||| d.setWidth 16 := rfl
@[simp] theorem rspOf_false (d : Byte) : rspOf false d = 0x0000 := rfl

/-! ### The transaction of a command -/

/-- Without an answer the command waits in BUS. -/
theorem State.awaitBus_none {s : State} {op : BusOp} {t : Transport} (h : s.transport.ask op.txn = (none, t)) :
    s.awaitBus op = { s with transport := t, fsm := .bus op } := by
  simp [State.awaitBus, h]

/-- With an answer the command finishes. -/
theorem State.awaitBus_some {s : State} {op : BusOp} {d : BusDraw} {t : Transport}
    (h : s.transport.ask op.txn = (some d, t)) : s.awaitBus op = { s with transport := t }.finish op d := by
  simp [State.awaitBus, h]

theorem State.issue_none {s : State} {op : BusOp} {t : Transport} (h : s.transport.ask op.txn = (none, t)) :
    s.issue op = { s with transport := t, fsm := .bus op } := by
  simp [State.issue, State.awaitBus, h]

theorem State.issue_some {s : State} {op : BusOp} {d : BusDraw} {t : Transport}
    (h : s.transport.ask op.txn = (some d, t)) :
    s.issue op = { s with transport := t, fsm := .bus op }.finish op d := by
  simp [State.issue, State.awaitBus, h]

/-- Issuing is awaiting: FSM goes to BUS either way before the command ends. -/
theorem State.issue_eq_awaitBus (s : State) (op : BusOp) : s.issue op = { s with fsm := .bus op }.awaitBus op := rfl

/-! ### The flush and the set commands -/

theorem State.flush_error {s : State} {a : CacheArray} {c : FaultCause}
    (h : pack s.cfg.nonbinaryPack (s.cached a) = .error c) : s.flush a = s.raiseFault c := by
  simp [State.flush, h]

theorem State.flush_ok {s : State} {a : CacheArray} {b : Byte} (h : pack s.cfg.nonbinaryPack (s.cached a) = .ok b) :
    s.flush a = s.issue (.write a b) := by
  simp [State.flush, h]

theorem State.setPin_valid {s : State} {a : CacheArray} {pin val : Byte} {i : Fin 8} (h : pinIndex pin = some i) :
    s.setPin a pin val true = (s.setCached a ((s.cached a).set i.val val)).flush a := by
  simp [State.setPin, h]

theorem State.setPin_invalidPin {s : State} {a : CacheArray} {pin val : Byte} {ok : Bool} (h : pinIndex pin = none) :
    s.setPin a pin val ok = s.noop := by
  simp [State.setPin, h]

theorem State.setPin_invalidValue {s : State} {a : CacheArray} {pin val : Byte} : s.setPin a pin val false = s.noop := by
  unfold State.setPin
  split <;> rfl

theorem State.setPort_valid {s : State} {a : CacheArray} {list : List Byte} (h : listOk list = true) :
    s.setPort a list = (s.setCached a (arrayOfList list)).flush a := by
  simp [State.setPort, h]

theorem State.setPort_invalid {s : State} {a : CacheArray} {list : List Byte} (h : listOk list = false) :
    s.setPort a list = s.noop := by
  simp [State.setPort, h]

/-- Everything a per-pin set command can do. -/
theorem State.setPin_cases (s : State) (a : CacheArray) (pin val : Byte) (ok : Bool) :
    s.setPin a pin val ok = s.noop ∨
    ∃ i, pinIndex pin = some i ∧ ok = true ∧
      s.setPin a pin val ok = (s.setCached a ((s.cached a).set i.val val)).flush a := by
  cases hp : pinIndex pin with
  | none => exact .inl (State.setPin_invalidPin hp)
  | some i =>
    cases ok with
    | false => exact .inl State.setPin_invalidValue
    | true => exact .inr ⟨i, rfl, rfl, State.setPin_valid hp⟩

/-- Everything a per-port set command can do. -/
theorem State.setPort_cases (s : State) (a : CacheArray) (list : List Byte) :
    s.setPort a list = s.noop ∨
    (list.length = 8 ∧ s.setPort a list = (s.setCached a (arrayOfList list)).flush a) := by
  cases h : listOk list with
  | false => exact .inl (State.setPort_invalid h)
  | true => exact .inr ⟨by simpa [listOk] using h, State.setPort_valid h⟩

/-! ### The commands -/

/-- The kind of an outstanding transaction. -/
def BusOp.traffic : BusOp → Traffic
  | .probe => .probe
  | .read use => .read use.reg
  | .write a _ => .write a.reg

/-- Everything a command can do: be a no-op, issue its presence query or read, or update one cache array (perhaps with what
it held) and flush it. -/
theorem exec_cases (i : Instr) (s : State) :
    exec i s = .next s.noop ∨
    (∃ op, op.traffic = trafficOf i ∧ (∀ a b, op ≠ .write a b) ∧ exec i s = .next (s.issue op)) ∨
    ∃ a v, trafficOf i = .write a.reg ∧ exec i s = .next ((s.setCached a v).flush a) := by
  have pin : ∀ a p v ok, trafficOf i = .write a.reg → exec i s = .next (s.setPin a p v ok) →
      exec i s = .next s.noop ∨
      (∃ op, op.traffic = trafficOf i ∧ (∀ a b, op ≠ .write a b) ∧ exec i s = .next (s.issue op)) ∨
      ∃ a v, trafficOf i = .write a.reg ∧ exec i s = .next ((s.setCached a v).flush a) := by
    intro a p v ok ht he
    rcases s.setPin_cases a p v ok with h | ⟨_, _, _, h⟩
    · exact .inl (he.trans (congrArg _ h))
    · exact .inr (.inr ⟨a, _, ht, he.trans (congrArg _ h)⟩)
  have port : ∀ a l, trafficOf i = .write a.reg → exec i s = .next (s.setPort a l) →
      exec i s = .next s.noop ∨
      (∃ op, op.traffic = trafficOf i ∧ (∀ a b, op ≠ .write a b) ∧ exec i s = .next (s.issue op)) ∨
      ∃ a v, trafficOf i = .write a.reg ∧ exec i s = .next ((s.setCached a v).flush a) := by
    intro a l ht he
    rcases s.setPort_cases a l with h | ⟨_, h⟩
    · exact .inl (he.trans (congrArg _ h))
    · exact .inr (.inr ⟨a, _, ht, he.trans (congrArg _ h)⟩)
  cases i with
  | isConnected => exact .inr (.inl ⟨.probe, rfl, nofun, rfl⟩)
  | beginCmd => exact .inr (.inl ⟨.probe, rfl, nofun, rfl⟩)
  | setMode => exact .inr (.inr ⟨.mode, s.mode, rfl, rfl⟩)
  | getMode => exact .inr (.inl ⟨.read .mode, rfl, nofun, rfl⟩)
  | setInversion => exact .inr (.inr ⟨.inv, s.inv, rfl, rfl⟩)
  | getInversion => exact .inr (.inl ⟨.read .inv, rfl, nofun, rfl⟩)
  | setGpio => exact .inr (.inr ⟨.out, s.out, rfl, rfl⟩)
  | getGpio => exact .inr (.inl ⟨.read .inp, rfl, nofun, rfl⟩)
  | pinMode p v => exact pin .mode p v _ rfl rfl
  | pinModePort l => exact port .mode l rfl rfl
  | invertPin p v => exact pin .inv p v _ rfl rfl
  | invertPinPort l => exact port .inv l rfl rfl
  | digitalWrite p v => exact pin .out p v _ rfl rfl
  | digitalWritePort l => exact port .out l rfl rfl
  | digitalRead p =>
    cases h : pinIndex p with
    | none => exact .inl (by simp [exec, execDigitalRead, h])
    | some j => exact .inr (.inl ⟨.read (.inpPin j), rfl, nofun, by simp [exec, execDigitalRead, h]⟩)
  | digitalReadPort => exact .inr (.inl ⟨.read .inpPort, rfl, nofun, rfl⟩)

/-- A command never stops the machine. -/
theorem exec_next (i : Instr) (s : State) : ∃ t, exec i s = .next t := by
  rcases exec_cases i s with h | ⟨_, _, _, h⟩ | ⟨_, _, _, h⟩ <;> exact ⟨_, h⟩

/-! ### One step -/

@[simp] theorem Fetched.outcome_run (i : Instr) (s : State) : (Fetched.run i s).outcome = exec i s := rfl
@[simp] theorem Fetched.outcome_done (o : Host.Outcome State Fault Refusal) : (Fetched.done o).outcome = o := rfl

/-- A step of an accepted configuration with no reset pending is decided by FSM. -/
theorem step_of_running {s : State} (hc : configRefusal s.cfg = none) (hr : s.resetReq = none) :
    step s = (fetchByFsm s).outcome := by simp [step, fetch, hc, hr]

theorem step_of_reset {s : State} {req : ResetReq} (hc : configRefusal s.cfg = none) (hr : s.resetReq = some req) :
    step s = serviceReset req s := by simp [step, fetch, hc, hr]

theorem step_of_refused {s : State} {r : Refusal} (hc : configRefusal s.cfg = some r) : step s = .refused r := by
  simp [step, fetch, hc]

/-! Several steps (R203) -/

@[simp] theorem steps_zero (s : State) : steps 0 s = .next s := rfl
theorem steps_succ {s t : State} (n : Nat) (h : step s = .next t) : steps (n + 1) s = steps n t := by simp [steps, h]
@[simp] theorem steps_one (s : State) : steps 1 s = step s := by
  simp only [steps]
  split <;> simp_all

@[simp] theorem Transport.polled_zero (t : Transport) (x : Txn) : t.polled x 0 = t := rfl
@[simp] theorem Transport.polled_succ (t : Transport) (x : Txn) (n : Nat) :
    t.polled x (n + 1) = (t.ask x).2.polled x n := rfl

/-- A transport that never answers, asked once, still never answers (R66). -/
theorem Transport.NeverAnswers.ask {t : Transport} {x : Txn} (h : t.NeverAnswers x) :
    t.ask x = (none, (t.ask x).2) ∧ (t.ask x).2.NeverAnswers x := ⟨Prod.ext (h 0) rfl, fun n => h (n + 1)⟩

/-! What a step does by FSM (R26) -/

theorem fetchByFsm_idle_none {s : State} (hf : s.fsm = .idle) (hw : s.cmdIn = []) : fetchByFsm s = .done (.next s) := by
  simp [fetchByFsm, hf, hw]

theorem fetchByFsm_idle {s : State} {h : Word} {rest : List Word} (hf : s.fsm = .idle) (hw : s.cmdIn = h :: rest) :
    fetchByFsm s = takeHeader h rest s := by simp [fetchByFsm, hf, hw]

theorem fetchByFsm_recv {s : State} (hf : s.fsm = .recv) : fetchByFsm s = receive s.cmdIn s := by simp [fetchByFsm, hf]

theorem fetchByFsm_exec {s : State} (hf : s.fsm = .exec) : fetchByFsm s = launch s := by simp [fetchByFsm, hf]

theorem fetchByFsm_bus {s : State} {op : BusOp} (hf : s.fsm = .bus op) :
    fetchByFsm s = .done (.next (s.awaitBus op)) := by simp [fetchByFsm, hf]

theorem fetchByFsm_fault {s : State} (hf : s.fsm = .fault) : fetchByFsm s = .done (.next s) := by simp [fetchByFsm, hf]

/-- Everything a reset request can do (R190, R192, R6). -/
theorem serviceReset_cases (req : ResetReq) (s : State) :
    (∃ op, s.fsm = .bus op ∧ serviceReset req s = .refused .resetDuringBus) ∨
    ((∀ op, s.fsm ≠ .bus op) ∧
      ((req.addr.getD defaultAddr ∈ addrList ∧ serviceReset req s = .next (s.construct req.addr)) ∨
       (req.addr.getD defaultAddr ∉ addrList ∧ serviceReset req s = .refused .addrNotListed))) := by
  unfold serviceReset
  cases hf : s.fsm with
  | bus op => exact .inl ⟨op, rfl, rfl⟩
  | idle | recv | exec | fault =>
    refine .inr ⟨nofun, ?_⟩
    by_cases ha : req.addr.getD defaultAddr ∈ addrList
    · exact .inl ⟨ha, by simp [ha]⟩
    · exact .inr ⟨ha, by simp [ha]⟩

/-- A step is defined only of an accepted configuration. -/
theorem configRefusal_of_step {s t : State} (h : step s = .next t) : configRefusal s.cfg = none := by
  cases hc : configRefusal s.cfg with
  | none => rfl
  | some r => simp [step, fetch, hc] at h

/-- Running a complete command: its meaning in the state with FSM in EXEC. -/
theorem launch_cases (s : State) :
    (∃ op, decodeHeader s.hdr = .ok op ∧
      launch s = .run (op.command (pinField s.hdr) (valField s.hdr) s.received) { s with fsm := .exec }) ∨
    ∃ e, decodeHeader s.hdr = .error e ∧ launch s = .done (.fault .headerNotAccepted) := by
  unfold launch decodeCommand
  cases h : decodeHeader s.hdr with
  | ok op => exact .inl ⟨op, rfl, rfl⟩
  | error e => exact .inr ⟨e, rfl, rfl⟩

end Sys2Proof.Machine
end

