-- ==== Sys2Proof/Laws/Fetch.lean ====
section
/-!
SUPPORT. Taking words from the command stream: what LISTBUF holds afterwards, and what `receive` and `takeHeader` do.
-/

namespace Sys2Proof.Machine

/-! ### LISTBUF -/

/-- LISTBUF after one element is stored (R29). -/
theorem storeEntry_getElem? (buf : Vector Byte 255) (n e : Byte) (j : Nat) :
    (storeEntry buf n e).toList[j]? = if j = n.toNat ∧ n.toNat < 255 then some e else buf.toList[j]? := by
  unfold storeEntry
  by_cases h : n.toNat < 255
  · simp only [h, ↓reduceDIte, and_true, Vector.toList_set, List.getElem?_set, Vector.length_toList]
    by_cases hj : n.toNat = j
    · subst hj; simp
    · simp [hj, Ne.symm hj]
  · simp [h]

/-- LISTBUF after a list is stored from entry `n` on, within the buffer (R29). -/
theorem storeAll_getElem? (buf : Vector Byte 255) (n : Byte) (es : List Byte) (j : Nat) (h : n.toNat + es.length ≤ 255) :
    (storeAll buf n es).toList[j]? =
      if n.toNat ≤ j ∧ j < n.toNat + es.length then es[j - n.toNat]? else buf.toList[j]? := by
  induction es generalizing buf n with
  | nil =>
    rw [if_neg (by simp)]
    rfl
  | cons e es ih =>
    simp only [List.length_cons] at h ⊢
    have hn : (n + 1).toNat = n.toNat + 1 := by
      rw [BitVec.toNat_add]
      simp
      omega
    simp only [storeAll]
    rw [ih _ _ (by omega), storeEntry_getElem?, hn]
    by_cases h1 : n.toNat + 1 ≤ j ∧ j < n.toNat + 1 + es.length
    · rw [if_pos h1, if_pos (by omega)]
      rw [show j - n.toNat = (j - (n.toNat + 1)) + 1 by omega]
      simp
    · rw [if_neg h1]
      by_cases h2 : j = n.toNat
      · subst h2
        simp [show n.toNat < 255 by omega]
      · rw [if_neg (by omega), if_neg (by omega)]

/-- A list stored from entry 0 on is read back (R29, R85). -/
theorem take_storeAll (buf : Vector Byte 255) (es : List Byte) (h : es.length ≤ 255) :
    (storeAll buf 0 es).toList.take es.length = es := by
  apply List.ext_getElem?
  intro j
  rw [List.getElem?_take]
  by_cases hj : j < es.length
  · rw [if_pos hj, storeAll_getElem? _ _ _ _ (by simpa using h)]
    simp [hj]
  · rw [if_neg hj]
    simp [Nat.le_of_not_lt hj]

/-! ### Payload words -/

/-- The state after the legal payload words `good` are taken and `rest` is left (R29, R85). -/
def State.takeWords (s : State) (good rest : List Word) : State :=
  { s with
    cmdIn := rest
    listBuf := storeAll s.listBuf s.listCnt (good.map payloadElement)
    listCnt := s.listCnt + BitVec.ofNat 8 good.length }

theorem State.takeWords_cons (s : State) (w : Word) (good rest : List Word) :
    (s.takeWord w (good ++ rest)).takeWords good rest = s.takeWords (w :: good) rest := by
  simp only [State.takeWords, State.takeWord, List.map_cons, storeAll, List.length_cons, BitVec.ofNat_add, BitVec.add_assoc]
  rw [BitVec.add_comm 1 (BitVec.ofNat 8 good.length)]
  rfl

/-- Legal payload words that are still expected are taken one after the other (R26, R80). -/
theorem receive_good {s : State} {good rest : List Word} (hs : s.cmdIn = good ++ rest)
    (hg : ∀ w ∈ good, payloadLegal w = true) (hl : s.listCnt.toNat + good.length ≤ (lenField s.hdr).toNat) :
    receive (good ++ rest) s = receive rest (s.takeWords good rest) := by
  induction good generalizing s with
  | nil =>
    have : s.takeWords [] rest = s := by
      simp only [List.nil_append] at hs
      simp [State.takeWords, storeAll, ← hs]
    rw [this]; rfl
  | cons w good ih =>
    simp only [List.length_cons] at hl
    have hcnt : (s.listCnt + 1).toNat = s.listCnt.toNat + 1 := by
      have := (lenField s.hdr).isLt
      rw [BitVec.toNat_add]
      simp
      omega
    rw [List.cons_append, receive, if_pos (by omega), if_pos (hg w (by simp)),
      ih (s := s.takeWord w (good ++ rest)) rfl (fun v hv => hg v (by simp [hv])) (by simp only [State.takeWord_listCnt, State.takeWord_hdr, hcnt]; omega),
      State.takeWords_cons]

/-- With no further word and payload still expected, the controller waits in the state it is in (R26). -/
theorem receive_wait {s : State} (h : s.listCnt.toNat < (lenField s.hdr).toNat) : receive [] s = .done (.next s) := by
  simp [receive, h]

/-- An illegal payload word faults (R87). -/
theorem receive_bad {s : State} {w : Word} {rest : List Word} (h : s.listCnt.toNat < (lenField s.hdr).toNat)
    (hw : payloadLegal w = false) :
    receive (w :: rest) s = .done (.next ({ s with cmdIn := rest }.raiseFault .illegalCommand)) := by
  simp [receive, h, hw]

/-- With the payload complete, the command is launched (R26). -/
theorem receive_complete {s : State} {ws : List Word} (h : (lenField s.hdr).toNat ≤ s.listCnt.toNat) :
    receive ws s = launch s := by
  cases ws <;> simp [receive, Nat.not_lt.2 h]

/-- Everything `receive` can do: `ws` splits into the payload words taken and the rest; then the controller waits for more,
or faults on an illegal word, or launches the command. -/
theorem receive_cases (ws : List Word) (s : State) (hs : s.cmdIn = ws) :
    ∃ good rest, ws = good ++ rest ∧ (∀ w ∈ good, payloadLegal w = true) ∧
      (good = [] ∨ s.listCnt.toNat + good.length ≤ (lenField s.hdr).toNat) ∧
      ((rest = [] ∧ s.listCnt.toNat + good.length < (lenField s.hdr).toNat ∧
          receive ws s = .done (.next (s.takeWords good []))) ∨
       (∃ bad tl, rest = bad :: tl ∧ payloadLegal bad = false ∧ s.listCnt.toNat + good.length < (lenField s.hdr).toNat ∧
          receive ws s = .done (.next ((s.takeWords good tl).raiseFault .illegalCommand))) ∨
       ((lenField s.hdr).toNat ≤ s.listCnt.toNat + good.length ∧ receive ws s = launch (s.takeWords good rest))) := by
  have self : ∀ (s : State) ws, s.cmdIn = ws → s.takeWords [] ws = s := by
    intro s ws h
    simp [State.takeWords, storeAll, ← h]
  induction ws generalizing s with
  | nil =>
    refine ⟨[], [], rfl, by simp, .inl rfl, ?_⟩
    by_cases h : s.listCnt.toNat < (lenField s.hdr).toNat
    · exact .inl ⟨rfl, h, by rw [self s [] hs, receive_wait h]⟩
    · exact .inr (.inr ⟨by simpa using h, by rw [self s [] hs, receive_complete (by omega)]⟩)
  | cons w ws ih =>
    by_cases h : s.listCnt.toNat < (lenField s.hdr).toNat
    · cases hw : payloadLegal w with
      | false =>
        refine ⟨[], w :: ws, rfl, by simp, .inl rfl, .inr (.inl ⟨w, ws, rfl, hw, by simpa using h, ?_⟩)⟩
        rw [receive_bad h hw]
        simp [State.takeWords, storeAll]
      | true =>
        have hcnt : (s.listCnt + 1).toNat = s.listCnt.toNat + 1 := by
          have := (lenField s.hdr).isLt
          rw [BitVec.toNat_add]
          simp
          omega
        have hstep : receive (w :: ws) s = receive ws (s.takeWord w ws) := by simp [receive, h, hw]
        obtain ⟨good, rest, rfl, hgood, hlen, hcases⟩ := ih (s.takeWord w ws) rfl
        simp only [State.takeWord_listCnt, State.takeWord_hdr, hcnt] at hlen hcases
        have heq : ∀ r, (s.takeWord w (good ++ rest)).takeWords good r = s.takeWords (w :: good) r := by
          intro r
          rw [← State.takeWords_cons s w good r]
          rfl
        rw [heq] at hcases
        refine ⟨w :: good, rest, rfl, ?_, .inr ?_, ?_⟩
        · intro v hv
          rcases List.mem_cons.1 hv with rfl | hv
          · exact hw
          · exact hgood v hv
        · rcases hlen with rfl | hlen
          · simpa using h
          · simp only [List.length_cons]; omega
        · rw [hstep]
          simp only [List.length_cons]
          rcases hcases with ⟨rfl, h1, h2⟩ | ⟨bad, tl, rfl, hb, h1, h2⟩ | ⟨h1, h2⟩
          · exact .inl ⟨rfl, by omega, h2⟩
          · refine .inr (.inl ⟨bad, tl, rfl, hb, by omega, ?_⟩)
            rw [h2, heq]
          · exact .inr (.inr ⟨by omega, by rw [h2, heq]⟩)
    · exact ⟨[], w :: ws, rfl, by simp, .inl rfl,
        .inr (.inr ⟨by simpa using h, by rw [self s _ hs, receive_complete (by omega)]⟩)⟩

/-! ### Headers -/

/-- An illegal header faults (R87). -/
theorem takeHeader_error {h : Word} {rest : List Word} {s : State} {e : DecodeError} (he : decodeHeader h = .error e) :
    takeHeader h rest s = .done (.next ({ s with cmdIn := rest }.raiseFault .illegalCommand)) := by
  simp [takeHeader, he]

/-- A legal header with no payload to come launches its command (R26). -/
theorem takeHeader_single {h : Word} {rest : List Word} {s : State} {op : Opcode} (ho : decodeHeader h = .ok op)
    (hl : op.format ≠ .l) : takeHeader h rest s = launch { s with cmdIn := rest, hdr := h } := by
  simp [takeHeader, ho, hl]

/-- A per-port header with LEN = 0 launches its command with LISTCNT cleared (R26, R29). -/
theorem takeHeader_empty {h : Word} {rest : List Word} {s : State} {op : Opcode} (ho : decodeHeader h = .ok op)
    (hl : op.format = .l) (hz : lenField h = 0) :
    takeHeader h rest s = launch { s with cmdIn := rest, hdr := h, listCnt := 0 } := by
  simp [takeHeader, ho, hl, hz]

/-- A per-port header with LEN > 0 goes on to its payload (R26, R29). -/
theorem takeHeader_list {h : Word} {rest : List Word} {s : State} {op : Opcode} (ho : decodeHeader h = .ok op)
    (hl : op.format = .l) (hz : lenField h ≠ 0) :
    takeHeader h rest s = receive rest { s with cmdIn := rest, hdr := h, listCnt := 0, fsm := .recv } := by
  have hz' : ¬lenField h = 0#8 := hz
  simp [takeHeader, ho, hl, hz']

/-- Launching the command of a legal header (R26). -/
theorem launch_ok {s : State} {op : Opcode} (ho : decodeHeader s.hdr = .ok op) :
    launch s = .run (op.command (pinField s.hdr) (valField s.hdr) s.received) { s with fsm := .exec } := by
  simp [launch, decodeCommand, ho]

end Sys2Proof.Machine
end

