-- ==== Sys2Proof/Laws/Frames.lean ====
section
/-!
SUPPORT. What the transaction of a command, a flush and a set command never change: the configuration, the registers a
command was received in, the command stream and a reset request; and where FSM can be after a command.
-/

namespace Sys2Proof.Machine

@[simp] theorem State.finishRead_cfg (s : State) (use : ReadUse) (b : Byte) : (s.finishRead use b).cfg = s.cfg := by cases use <;> simp [State.finishRead]
@[simp] theorem State.finishRead_hdr (s : State) (use : ReadUse) (b : Byte) : (s.finishRead use b).hdr = s.hdr := by cases use <;> simp [State.finishRead]
@[simp] theorem State.finishRead_listBuf (s : State) (use : ReadUse) (b : Byte) : (s.finishRead use b).listBuf = s.listBuf := by cases use <;> simp [State.finishRead]
@[simp] theorem State.finishRead_listCnt (s : State) (use : ReadUse) (b : Byte) : (s.finishRead use b).listCnt = s.listCnt := by cases use <;> simp [State.finishRead]
@[simp] theorem State.finishRead_cmdIn (s : State) (use : ReadUse) (b : Byte) : (s.finishRead use b).cmdIn = s.cmdIn := by cases use <;> simp [State.finishRead]
@[simp] theorem State.finishRead_resetReq (s : State) (use : ReadUse) (b : Byte) : (s.finishRead use b).resetReq = s.resetReq := by cases use <;> simp [State.finishRead]

@[simp] theorem State.finish_cfg (s : State) (op : BusOp) (d : BusDraw) : (s.finish op d).cfg = s.cfg := by
  cases op <;> simp only [State.finish]
  · simp
  · split <;> simp
  · split <;> simp
@[simp] theorem State.finish_hdr (s : State) (op : BusOp) (d : BusDraw) : (s.finish op d).hdr = s.hdr := by
  cases op <;> simp only [State.finish]
  · simp
  · split <;> simp
  · split <;> simp
@[simp] theorem State.finish_listBuf (s : State) (op : BusOp) (d : BusDraw) : (s.finish op d).listBuf = s.listBuf := by
  cases op <;> simp only [State.finish]
  · simp
  · split <;> simp
  · split <;> simp
@[simp] theorem State.finish_listCnt (s : State) (op : BusOp) (d : BusDraw) : (s.finish op d).listCnt = s.listCnt := by
  cases op <;> simp only [State.finish]
  · simp
  · split <;> simp
  · split <;> simp
@[simp] theorem State.finish_cmdIn (s : State) (op : BusOp) (d : BusDraw) : (s.finish op d).cmdIn = s.cmdIn := by
  cases op <;> simp only [State.finish]
  · simp
  · split <;> simp
  · split <;> simp
@[simp] theorem State.finish_resetReq (s : State) (op : BusOp) (d : BusDraw) : (s.finish op d).resetReq = s.resetReq := by
  cases op <;> simp only [State.finish]
  · simp
  · split <;> simp
  · split <;> simp

@[simp] theorem State.awaitBus_cfg (s : State) (op : BusOp) : (s.awaitBus op).cfg = s.cfg := by
  unfold State.awaitBus
  split <;> simp
@[simp] theorem State.awaitBus_hdr (s : State) (op : BusOp) : (s.awaitBus op).hdr = s.hdr := by
  unfold State.awaitBus
  split <;> simp
@[simp] theorem State.awaitBus_listBuf (s : State) (op : BusOp) : (s.awaitBus op).listBuf = s.listBuf := by
  unfold State.awaitBus
  split <;> simp
@[simp] theorem State.awaitBus_listCnt (s : State) (op : BusOp) : (s.awaitBus op).listCnt = s.listCnt := by
  unfold State.awaitBus
  split <;> simp
@[simp] theorem State.awaitBus_cmdIn (s : State) (op : BusOp) : (s.awaitBus op).cmdIn = s.cmdIn := by
  unfold State.awaitBus
  split <;> simp
@[simp] theorem State.awaitBus_resetReq (s : State) (op : BusOp) : (s.awaitBus op).resetReq = s.resetReq := by
  unfold State.awaitBus
  split <;> simp

@[simp] theorem State.issue_cfg (s : State) (op : BusOp) : (s.issue op).cfg = s.cfg := by simp [State.issue]
@[simp] theorem State.issue_hdr (s : State) (op : BusOp) : (s.issue op).hdr = s.hdr := by simp [State.issue]
@[simp] theorem State.issue_listBuf (s : State) (op : BusOp) : (s.issue op).listBuf = s.listBuf := by simp [State.issue]
@[simp] theorem State.issue_listCnt (s : State) (op : BusOp) : (s.issue op).listCnt = s.listCnt := by simp [State.issue]
@[simp] theorem State.issue_cmdIn (s : State) (op : BusOp) : (s.issue op).cmdIn = s.cmdIn := by simp [State.issue]
@[simp] theorem State.issue_resetReq (s : State) (op : BusOp) : (s.issue op).resetReq = s.resetReq := by simp [State.issue]

@[simp] theorem State.flush_cfg (s : State) (a : CacheArray) : (s.flush a).cfg = s.cfg := by
  unfold State.flush
  split <;> simp
@[simp] theorem State.flush_hdr (s : State) (a : CacheArray) : (s.flush a).hdr = s.hdr := by
  unfold State.flush
  split <;> simp
@[simp] theorem State.flush_listBuf (s : State) (a : CacheArray) : (s.flush a).listBuf = s.listBuf := by
  unfold State.flush
  split <;> simp
@[simp] theorem State.flush_listCnt (s : State) (a : CacheArray) : (s.flush a).listCnt = s.listCnt := by
  unfold State.flush
  split <;> simp
@[simp] theorem State.flush_cmdIn (s : State) (a : CacheArray) : (s.flush a).cmdIn = s.cmdIn := by
  unfold State.flush
  split <;> simp
@[simp] theorem State.flush_resetReq (s : State) (a : CacheArray) : (s.flush a).resetReq = s.resetReq := by
  unfold State.flush
  split <;> simp

@[simp] theorem State.setPin_cfg (s : State) (a : CacheArray) (pin val : Byte) (ok : Bool) : (s.setPin a pin val ok).cfg = s.cfg := by
  rcases s.setPin_cases a pin val ok with h | ⟨_, _, _, h⟩ <;> simp [h]
@[simp] theorem State.setPin_hdr (s : State) (a : CacheArray) (pin val : Byte) (ok : Bool) : (s.setPin a pin val ok).hdr = s.hdr := by
  rcases s.setPin_cases a pin val ok with h | ⟨_, _, _, h⟩ <;> simp [h]
@[simp] theorem State.setPin_listBuf (s : State) (a : CacheArray) (pin val : Byte) (ok : Bool) : (s.setPin a pin val ok).listBuf = s.listBuf := by
  rcases s.setPin_cases a pin val ok with h | ⟨_, _, _, h⟩ <;> simp [h]
@[simp] theorem State.setPin_listCnt (s : State) (a : CacheArray) (pin val : Byte) (ok : Bool) : (s.setPin a pin val ok).listCnt = s.listCnt := by
  rcases s.setPin_cases a pin val ok with h | ⟨_, _, _, h⟩ <;> simp [h]
@[simp] theorem State.setPin_cmdIn (s : State) (a : CacheArray) (pin val : Byte) (ok : Bool) : (s.setPin a pin val ok).cmdIn = s.cmdIn := by
  rcases s.setPin_cases a pin val ok with h | ⟨_, _, _, h⟩ <;> simp [h]
@[simp] theorem State.setPin_resetReq (s : State) (a : CacheArray) (pin val : Byte) (ok : Bool) : (s.setPin a pin val ok).resetReq = s.resetReq := by
  rcases s.setPin_cases a pin val ok with h | ⟨_, _, _, h⟩ <;> simp [h]

@[simp] theorem State.setPort_cfg (s : State) (a : CacheArray) (list : List Byte) : (s.setPort a list).cfg = s.cfg := by
  rcases s.setPort_cases a list with h | ⟨_, h⟩ <;> simp [h]
@[simp] theorem State.setPort_hdr (s : State) (a : CacheArray) (list : List Byte) : (s.setPort a list).hdr = s.hdr := by
  rcases s.setPort_cases a list with h | ⟨_, h⟩ <;> simp [h]
@[simp] theorem State.setPort_listBuf (s : State) (a : CacheArray) (list : List Byte) : (s.setPort a list).listBuf = s.listBuf := by
  rcases s.setPort_cases a list with h | ⟨_, h⟩ <;> simp [h]
@[simp] theorem State.setPort_listCnt (s : State) (a : CacheArray) (list : List Byte) : (s.setPort a list).listCnt = s.listCnt := by
  rcases s.setPort_cases a list with h | ⟨_, h⟩ <;> simp [h]
@[simp] theorem State.setPort_cmdIn (s : State) (a : CacheArray) (list : List Byte) : (s.setPort a list).cmdIn = s.cmdIn := by
  rcases s.setPort_cases a list with h | ⟨_, h⟩ <;> simp [h]
@[simp] theorem State.setPort_resetReq (s : State) (a : CacheArray) (list : List Byte) : (s.setPort a list).resetReq = s.resetReq := by
  rcases s.setPort_cases a list with h | ⟨_, h⟩ <;> simp [h]

/-- No command changes the configuration, the registers it was received in, the command stream or a reset request. -/
theorem exec_frame {i : Instr} {s t : State} (h : exec i s = .next t) :
    t.cfg = s.cfg ∧ t.hdr = s.hdr ∧ t.listBuf = s.listBuf ∧ t.listCnt = s.listCnt ∧ t.cmdIn = s.cmdIn ∧
      t.resetReq = s.resetReq := by
  rcases exec_cases i s with h' | ⟨op, _, _, h'⟩ | ⟨a, v, _, h'⟩ <;> rw [h] at h' <;> cases h' <;> simp

/-- A transaction that has been answered is not outstanding, and its command has ended. -/
theorem State.finish_fsm (s : State) (op : BusOp) (d : BusDraw) :
    (s.finish op d).fsm = .idle ∨ (s.finish op d).fsm = .fault := by
  cases op with
  | probe => simp [State.finish]
  | read use =>
    simp only [State.finish]
    split
    · cases use <;> simp [State.finishRead]
    · simp
  | write a b =>
    simp only [State.finish]
    split <;> simp

/-- After the transport is asked, the command has ended or the same transaction is outstanding. -/
theorem State.awaitBus_fsm (s : State) (op : BusOp) :
    (s.awaitBus op).fsm = .idle ∨ (s.awaitBus op).fsm = .fault ∨ (s.awaitBus op).fsm = .bus op := by
  unfold State.awaitBus
  split
  · exact .inr (.inr rfl)
  · rcases State.finish_fsm _ op _ with h | h
    · exact .inl h
    · exact .inr (.inl h)

/-- After a command FSM is IDLE, FAULT or BUS (R26). -/
theorem exec_fsm {i : Instr} {s t : State} (h : exec i s = .next t) :
    t.fsm = .idle ∨ t.fsm = .fault ∨ ∃ op, t.fsm = .bus op := by
  have issue : ∀ (s : State) op, (s.issue op).fsm = .idle ∨ (s.issue op).fsm = .fault ∨ ∃ op', (s.issue op).fsm = .bus op' := by
    intro s op
    rcases State.awaitBus_fsm { s with fsm := .bus op } op with h | h | h
    · exact .inl h
    · exact .inr (.inl h)
    · exact .inr (.inr ⟨op, h⟩)
  rcases exec_cases i s with h' | ⟨op, _, _, h'⟩ | ⟨a, v, _, h'⟩ <;> rw [h] at h' <;> cases h'
  · simp
  · exact issue s op
  · unfold State.flush
    split
    · simp
    · exact issue _ _

/-- After a fetched command or outcome, FSM is RECV only where the controller waits for payload. -/
theorem launch_outcome_fsm {s t : State} (h : (launch s).outcome = .next t) :
    t.fsm = .idle ∨ t.fsm = .fault ∨ ∃ op, t.fsm = .bus op := by
  rcases launch_cases s with ⟨op, _, h'⟩ | ⟨e, _, h'⟩
  · rw [h'] at h
    exact exec_fsm h
  · rw [h'] at h
    exact nomatch h

end Sys2Proof.Machine
end

