-- ==== Sys2Proof/Laws/Pack.lean ====
section
/-!
SUPPORT. The pack and unpack engine and the operand checks, one lemma per definition.
-/

namespace Sys2Proof.Machine

/-! ### Operands -/

theorem pinOk_iff (pin : Byte) : pinOk pin = true ↔ 0 ≤ pin.toInt ∧ pin.toInt ≤ 7 := by
  simp [pinOk]

theorem binary_iff (val : Byte) : binary val = true ↔ val = 0 ∨ val = 1 := by
  simp [binary]

theorem listOk_iff (list : List Byte) : listOk list = true ↔ list.length = 8 := by
  simp [listOk]

/-- A pin outside 0 to 7 selects no element. -/
theorem pinIndex_none {pin : Byte} (h : ¬(0 ≤ pin.toInt ∧ pin.toInt ≤ 7)) : pinIndex pin = none := by
  have : pinOk pin = false := by simpa using mt (pinOk_iff pin).1 h
  simp [pinIndex, this]

/-- A pin in 0 to 7 selects its own element. -/
theorem pinIndex_some {pin : Byte} {i : Fin 8} (h : pin.toInt = i.val) : pinIndex pin = some i := by
  have hi := i.isLt
  have : pinOk pin = true := (pinOk_iff pin).2 (by omega)
  have hn : pin.toNat = i.val := by
    have := pin.isLt
    rw [BitVec.toInt_eq_toNat_cond] at h
    split at h <;> omega
  simp [pinIndex, this, hn]

/-- A list of 8 elements is the array of its elements. -/
theorem arrayOfList_toList (a : PinArray) : arrayOfList a.toList = a := by
  ext i hi
  simp [arrayOfList]

/-! ### Lanes -/

/-- A bit of an OR of lanes. -/
theorem getLsbD_foldl_or (n : Nat) (f : Fin 8 → BitVec n) (l : List (Fin 8)) (acc : BitVec n) (j : Nat) :
    (l.foldl (fun acc i => acc ||| f i) acc).getLsbD j = (acc.getLsbD j || l.any fun i => (f i).getLsbD j) := by
  induction l generalizing acc with
  | nil => simp
  | cons x xs ih => simp [ih, Bool.or_assoc]

/-- Bit j of the ORed lanes is set exactly when some lane i sets it (R111, R112). -/
theorem getLsbD_orLanes (n : Nat) (a : PinArray) (j : Nat) :
    (orLanes n a).getLsbD j = true ↔ j < n ∧ ∃ i : Fin 8, i.val ≤ j ∧ a[i].getLsbD (j - i.val) = true := by
  unfold orLanes
  rw [getLsbD_foldl_or n fun i => a[i].setWidth n <<< i.val]
  have h0 : (0 : BitVec n).getLsbD j = false := by simp
  simp only [h0, Bool.false_or, List.any_eq_true, List.mem_finRange, true_and,
    BitVec.getLsbD_shiftLeft, BitVec.getLsbD_setWidth, Bool.and_eq_true, decide_eq_true_eq, Bool.not_eq_true',
    decide_eq_false_iff_not]
  constructor
  · rintro ⟨i, ⟨hj, hi⟩, _, hb⟩
    exact ⟨hj, i, by omega, hb⟩
  · rintro ⟨hj, i, hi, hb⟩
    exact ⟨i, ⟨hj, by omega⟩, by omega, hb⟩

/-- Element i of an unpacked byte is its bit i (R113). -/
theorem unpack_getElem (b : Byte) (i : Fin 8) : (unpack b)[i] = if b.getLsbD i.val then 1 else 0 := by
  have h : (unpack b)[i] = (b >>> i.val) &&& 1 := by simp [unpack]
  rw [h]
  revert b i
  decide

/-- Element i of INP after a refresh is bit i of the byte (R24, R113). -/
theorem unpackBits_getElem (b : Byte) (i : Fin 8) : (unpackBits b)[i] = if b.getLsbD i.val then 1 else 0 := by
  have h : (unpackBits b)[i] = (unpack b)[i].setWidth 1 := by simp [unpackBits]
  rw [h, unpack_getElem]
  split <;> rfl

/-- The byte of the refreshed INP elements is the byte read (R150). -/
theorem orBits_unpackBits (b : Byte) : orBits (unpackBits b) = b := by
  apply BitVec.eq_of_getLsbD_eq
  intro j hj
  unfold orBits
  rw [getLsbD_foldl_or 8 fun i => (unpackBits b)[i].setWidth 8 <<< i.val]
  simp only [unpackBits_getElem]
  revert b
  have : ∀ j : Fin 8, ∀ b : Byte, ((0#8).getLsbD j.val || (List.finRange 8).any fun i =>
      ((if b.getLsbD i.val then (1 : BitVec 1) else 0).setWidth 8 <<< i.val).getLsbD j.val) = b.getLsbD j.val := by
    decide
  exact this ⟨j, hj⟩

/-- The data byte of a pin level (R149). -/
theorem boolData_of_ite (c : Prop) [Decidable c] :
    BitVec.setWidth 8 (if c then (1 : BitVec 1) else 0) = if c then 0x01 else 0x00 := by
  split <;> rfl

/-- What PACK answers under `fault` (R111). -/
theorem pack_fault (a : PinArray) :
    pack .fault a = if ∃ i : Fin 8, 1 < a[i].toNat then .error .nonbinaryPack else .ok (orLanes 8 a) := by
  have h : hasNonbinary a = true ↔ ∃ i : Fin 8, 1 < a[i].toNat := by
    simp only [hasNonbinary, List.any_eq_true, decide_eq_true_eq]
    constructor
    · rintro ⟨x, hx, h1⟩
      obtain ⟨i, hi, rfl⟩ := List.getElem_of_mem hx
      exact ⟨⟨i, by simpa using hi⟩, by simpa using h1⟩
    · rintro ⟨i, h1⟩
      exact ⟨a[i], by simp, h1⟩
  simp only [pack, h]

/-- What PACK answers under `positional`: a fault exactly when some lane reaches bit 8 (R111, R112). -/
theorem pack_positional (a : PinArray) :
    pack .positional a =
      if ∃ i : Fin 8, 0x100 ≤ a[i].toNat * 2 ^ i.val then .error .packOverflow else .ok ((orLanes 16 a).extractLsb' 0 8) := by
  have h : ((orLanes 16 a).extractLsb' 8 8 != 0) = true ↔ ∃ i : Fin 8, 0x100 ≤ a[i].toNat * 2 ^ i.val := by
    have hz : (orLanes 16 a).extractLsb' 8 8 ≠ 0 ↔ ∃ j, j < 8 ∧ (orLanes 16 a).getLsbD (8 + j) = true := by
      constructor
      · intro hne
        by_contra hno
        apply hne
        apply BitVec.eq_of_getLsbD_eq
        intro j hj
        simp only [BitVec.getLsbD_extractLsb']
        by_contra hb
        exact hno ⟨j, hj, by simpa [hj] using hb⟩
      · rintro ⟨j, hj, hb⟩ h0
        have := congrArg (fun v => v.getLsbD j) h0
        simp [hj, hb] at this
    rw [bne_iff_ne, hz]
    constructor
    · rintro ⟨j, hj, hb⟩
      obtain ⟨_, i, hi, hbit⟩ := (getLsbD_orLanes 16 a (8 + j)).1 hb
      refine ⟨i, ?_⟩
      have hge : 2 ^ (8 + j - i.val) ≤ a[i].toNat := Nat.ge_two_pow_of_testBit (by simpa [BitVec.getLsbD] using hbit)
      calc 0x100 ≤ 2 ^ (8 + j) := by
            have := Nat.pow_le_pow_right (n := 2) (by omega) (show 8 ≤ 8 + j by omega)
            omega
        _ = 2 ^ (8 + j - i.val) * 2 ^ i.val := by rw [← Nat.pow_add]; congr 1; omega
        _ ≤ _ := Nat.mul_le_mul_right _ hge
    · rintro ⟨i, hge⟩
      have hi := i.isLt
      have hlt : 2 ^ (8 - i.val) ≤ a[i].toNat := by
        have h256 : (0x100 : Nat) = 2 ^ (8 - i.val) * 2 ^ i.val := by
          rw [← Nat.pow_add, show 8 - i.val + i.val = 8 by omega]
        rw [h256] at hge
        exact Nat.le_of_mul_le_mul_right hge (Nat.two_pow_pos _)
      obtain ⟨m, hm, hbit⟩ := Nat.exists_ge_and_testBit_of_ge_two_pow hlt
      have hm8 : m < 8 := by
        by_contra hno
        have := Nat.testBit_lt_two_pow (Nat.lt_of_lt_of_le a[i].isLt (Nat.pow_le_pow_right (by omega) (show 8 ≤ m by omega)))
        rw [this] at hbit
        exact absurd hbit (by simp)
      refine ⟨m + i.val - 8, by omega, (getLsbD_orLanes 16 a _).2 ⟨by omega, i, by omega, ?_⟩⟩
      rw [show 8 + (m + i.val - 8) - i.val = m by omega]
      simpa [BitVec.getLsbD] using hbit
  simp only [pack, h]

/-- An element packs by itself, whatever the other elements are (R121). -/
def LanePacks (p : NonbinaryPack) (e : Byte) (i : Nat) : Prop :=
  match p with
  | .fault => e.toNat ≤ 1
  | .positional => e.toNat * 2 ^ i < 0x100

/-- PACK is decided element by element: it succeeds exactly when every element packs by itself (R121). -/
theorem pack_ok_iff (p : NonbinaryPack) (a : PinArray) :
    (∃ b, pack p a = .ok b) ↔ ∀ i : Fin 8, LanePacks p a[i] i.val := by
  cases p with
  | fault =>
    rw [pack_fault]
    constructor
    · rintro ⟨b, hb⟩ i
      by_contra hno
      rw [if_pos ⟨i, by simpa [LanePacks] using hno⟩] at hb
      exact nomatch hb
    · intro h
      refine ⟨_, if_neg ?_⟩
      rintro ⟨i, hi⟩
      have := h i
      simp only [LanePacks] at this
      omega
  | positional =>
    rw [pack_positional]
    constructor
    · rintro ⟨b, hb⟩ i
      by_contra hno
      rw [if_pos ⟨i, by simpa [LanePacks] using hno⟩] at hb
      exact nomatch hb
    · intro h
      refine ⟨_, if_neg ?_⟩
      rintro ⟨i, hi⟩
      have := h i
      simp only [LanePacks] at this
      omega

/-- PACK fails exactly when it does not succeed. -/
theorem pack_error_or_ok (p : NonbinaryPack) (a : PinArray) : (∃ c, pack p a = .error c) ∨ ∃ b, pack p a = .ok b := by
  cases h : pack p a with
  | error c => exact .inl ⟨c, rfl⟩
  | ok b => exact .inr ⟨b, rfl⟩

/-- The faults PACK can raise, by policy (R111). -/
theorem pack_error_cause {p : NonbinaryPack} {a : PinArray} {c : FaultCause} (h : pack p a = .error c) :
    c = match p with | .fault => .nonbinaryPack | .positional => .packOverflow := by
  cases p with
  | fault =>
    rw [pack_fault] at h
    split at h
    · exact (Except.error.inj h).symm
    · exact nomatch h
  | positional =>
    rw [pack_positional] at h
    split at h
    · exact (Except.error.inj h).symm
    · exact nomatch h

/-- An element that is stored and packs by itself keeps an array packing (R121). -/
theorem pack_ok_set {p : NonbinaryPack} {a : PinArray} (h : ∃ b, pack p a = .ok b) (i : Fin 8) (v : Byte)
    (hv : LanePacks p v i.val) : ∃ b, pack p (a.set i.val v) = .ok b := by
  rw [pack_ok_iff] at h ⊢
  intro j
  by_cases hij : i = j
  · subst hij
    simpa using hv
  · have : (a.set i.val v)[j] = a[j] := by
      have : i.val ≠ j.val := fun hc => hij (Fin.ext hc)
      simp [this]
    rw [this]
    exact h j

/-- A binary element packs in every lane under either policy (R111). -/
theorem lanePacks_of_binary (p : NonbinaryPack) {v : Byte} (h : v = 0 ∨ v = 1) (i : Fin 8) : LanePacks p v i.val := by
  have hb : ∀ i : Fin 8, 2 ^ i.val < 0x100 := by decide
  have := hb i
  rcases h with rfl | rfl <;> cases p <;> simp [LanePacks]
  omega

/-- Of a binary array, PACK answers the byte with bit i = element i, under either policy (R111). -/
theorem pack_of_binary (p : NonbinaryPack) {a : PinArray} (h : ∀ i : Fin 8, a[i] = 0 ∨ a[i] = 1) :
    ∃ b, pack p a = .ok b ∧ ∀ i : Fin 8, b.getLsbD i.val = a[i].getLsbD 0 := by
  obtain ⟨b, hb⟩ := (pack_ok_iff p a).2 fun i => lanePacks_of_binary p (h i) i
  refine ⟨b, hb, fun j => ?_⟩
  have hbit : ∀ i : Fin 8, ∀ m, 0 < m → a[i].getLsbD m = false := by
    intro i m hm
    rcases h i with h0 | h1
    · rw [h0]; simp
    · rw [h1]
      simp only [BitVec.ofNat_eq_ofNat, BitVec.getLsbD_ofNat]
      rw [Nat.testBit_one_eq_true_iff_self_eq_zero.not.mpr (by omega) |> Bool.eq_false_iff.mpr]
      simp
  have hlane : ∀ n, j.val < n → ((orLanes n a).getLsbD j.val = true ↔ a[j].getLsbD 0 = true) := by
    intro n hn
    rw [getLsbD_orLanes]
    constructor
    · rintro ⟨_, i, hi, hb⟩
      by_cases hij : i = j
      · subst hij; simpa using hb
      · have : i.val ≠ j.val := fun hc => hij (Fin.ext hc)
        rw [hbit i _ (by omega)] at hb
        exact absurd hb (by simp)
    · intro hb
      exact ⟨hn, j, Nat.le_refl _, by simpa using hb⟩
  have hj := j.isLt
  rw [Bool.eq_iff_iff]
  cases p with
  | fault =>
    rw [pack_fault] at hb
    split at hb
    · exact nomatch hb
    · rw [← Except.ok.inj hb]
      exact hlane 8 hj
  | positional =>
    rw [pack_positional] at hb
    split at hb
    · exact nomatch hb
    · rw [← Except.ok.inj hb, ← hlane 16 (by omega)]
      simp [hj]

/-- An unpacked array is binary (R113). -/
theorem unpack_binary (b : Byte) (i : Fin 8) : (unpack b)[i] = 0 ∨ (unpack b)[i] = 1 := by
  rw [unpack_getElem]
  split
  · exact .inr rfl
  · exact .inl rfl

/-- An unpacked array packs (R121). -/
theorem pack_unpack_ok (p : NonbinaryPack) (b : Byte) : ∃ c, pack p (unpack b) = .ok c :=
  (pack_ok_iff p _).2 fun i => lanePacks_of_binary p (unpack_binary b i) i

/-- The reset contents of an array pack (R121). -/
theorem pack_zero_ok (p : NonbinaryPack) : ∃ c, pack p (Vector.replicate 8 0) = .ok c :=
  (pack_ok_iff p _).2 fun i => lanePacks_of_binary p (.inl (by simp)) i

end Sys2Proof.Machine
end

