-- ==== Sys2Proof/Laws/PerInstr.lean ====
section
/-!
SUPPORT. What holds of every command as syntax, one lemma per constructor: the words the encoder writes begin with a legal
header of the command's opcode, which announces as many payload words as follow it (spec/30_encoding.md R82, R85, R86).
-/

namespace Sys2Proof.Laws.EncodesLegally

/-- A well-formed command's header is legal, selects its opcode and announces its payload. -/
def Statement (i : Instr) : Prop :=
  i.wellFormed = true → decodeHeader i.header = .ok i.opcode ∧ payloadLen i.header = (encode i).length - 1

theorem ofInstr (i : Instr) : Statement i := fun h =>
  ⟨decodeHeader_header i, by rw [payloadLen_header i h]; simp [encode]⟩

theorem isConnected : Statement .isConnected := ofInstr _
theorem beginCmd : Statement .beginCmd := ofInstr _
theorem setMode : Statement .setMode := ofInstr _
theorem getMode : Statement .getMode := ofInstr _
theorem setInversion : Statement .setInversion := ofInstr _
theorem getInversion : Statement .getInversion := ofInstr _
theorem setGpio : Statement .setGpio := ofInstr _
theorem getGpio : Statement .getGpio := ofInstr _
theorem pinMode (pin val : Byte) : Statement (.pinMode pin val) := ofInstr _
theorem pinModePort (list : List Byte) : Statement (.pinModePort list) := ofInstr _
theorem invertPin (pin val : Byte) : Statement (.invertPin pin val) := ofInstr _
theorem invertPinPort (list : List Byte) : Statement (.invertPinPort list) := ofInstr _
theorem digitalWrite (pin val : Byte) : Statement (.digitalWrite pin val) := ofInstr _
theorem digitalWritePort (list : List Byte) : Statement (.digitalWritePort list) := ofInstr _
theorem digitalRead (pin : Byte) : Statement (.digitalRead pin) := ofInstr _
theorem digitalReadPort : Statement .digitalReadPort := ofInstr _

end Sys2Proof.Laws.EncodesLegally
end

