-- ==== Sys2Proof/Tests/Slice0.lean ====
section
/-!
SUPPORT. Tests on fixed values, whose expected results come from spec/95_test_vectors.md and the rules named, and for each
statement with hypotheses a witness that meets them.
-/

namespace Sys2Proof.Tests

open Sys2Proof Sys2Proof.Machine

/-! ### Helpers -/

/-- Reset, on the reference device with the given DEV_OUT, DEV_INV, DEV_CFG and PINLVL (R76). -/
def onDevice (out inv cfg lvl : Byte) : State := { State.reset with transport := .reference ⟨out, inv, cfg, lvl⟩ }

/-- Reset, on the reference device with all its registers 0. -/
def fresh : State := onDevice 0 0 0 0

/-- Reset under `P_NONBINARY_PACK = positional`, on the reference device. -/
def positional : State := { fresh with cfg := { fresh.cfg with nonbinaryPack := .positional } }

/-- Reset with the listed answers of the transport to come. -/
def answers (l : List (Option BusDraw)) : State := { State.reset with transport := .draws l }

/-- A completed transfer of the byte 0x81 with the device present; a failed one with the device absent. -/
def done : BusDraw := ⟨true, 0x81, 1⟩
def failed : BusDraw := ⟨false, 0x00, 0⟩

/-- The state after an outcome, if it is a next state. -/
def after (o : Host.Outcome State Fault Refusal) : Option State :=
  match o with
  | .next s => some s
  | .fault _ => none
  | .refused _ => none

/-- RSP and the bus history after an outcome. -/
def seen (o : Host.Outcome State Fault Refusal) : Option (RspWord × List BusEvent) := (after o).map fun s => (s.rsp, s.hist)

/-- One step on the words `ws`. -/
def run (s : State) (ws : List Word) : Host.Outcome State Fault Refusal := step { s with cmdIn := ws }

/-- The words of eight payload elements. -/
def words (es : List Byte) : List Word := es.map payloadWord

/-! ### Well-formedness refuses what does not fit (R85, R91) -/

theorem test_wf_refuses_list_of_256_pinModePort : (Instr.pinModePort (List.replicate 256 0)).wellFormed = false := by
  decide +kernel
theorem test_wf_refuses_list_of_256_invertPinPort : (Instr.invertPinPort (List.replicate 256 0)).wellFormed = false := by
  decide +kernel
theorem test_wf_refuses_list_of_256_digitalWritePort :
    (Instr.digitalWritePort (List.replicate 256 0)).wellFormed = false := by decide +kernel

/-! ### Decoding, one word per constructor, written from the tables of R81, R82 and R86 -/

theorem test_decode_isConnected : decode [0x00000001] = .ok (.isConnected, []) := by decide
theorem test_decode_begin : decode [0x00000002] = .ok (.beginCmd, []) := by decide
theorem test_decode_setMode : decode [0x00000003] = .ok (.setMode, []) := by decide
theorem test_decode_getMode : decode [0x00000004] = .ok (.getMode, []) := by decide
theorem test_decode_setInversion : decode [0x00000005] = .ok (.setInversion, []) := by decide
theorem test_decode_getInversion : decode [0x00000006] = .ok (.getInversion, []) := by decide
theorem test_decode_setGpio : decode [0x00000007] = .ok (.setGpio, []) := by decide
theorem test_decode_getGpio : decode [0x00000008] = .ok (.getGpio, []) := by decide
/-- `PINMODE 3, IN` = 0x00010309 (R143): LEN 00000000, VAL 00000001, PIN 00000011, RSV 000, OP 01001. -/
theorem test_decode_pinMode : decode [0b00000000_00000001_00000011_000_01001] = .ok (.pinMode 3 1, []) := by decide
theorem test_decode_pinModePort : decode [0x0200000A, 0x00000001, 0x000000FF] = .ok (.pinModePort [1, 0xFF], []) := by decide
/-- `INVERTPIN 3, 2` = 0x0002030B (95_test_vectors.md). -/
theorem test_decode_invertPin : decode [0b00000000_00000010_00000011_000_01011] = .ok (.invertPin 3 2, []) := by decide
theorem test_decode_invertPinPort : decode [0x0100000C, 0x00000001, 0x00000001] = .ok (.invertPinPort [1], [0x00000001]) := by
  decide
/-- `DIGITALWRITE 2, 5` = 0x0005020D (95_test_vectors.md). -/
theorem test_decode_digitalWrite : decode [0b00000000_00000101_00000010_000_01101] = .ok (.digitalWrite 2 5, []) := by decide
theorem test_decode_digitalWritePort : decode [0x0000000E] = .ok (.digitalWritePort [], []) := by decide
/-- `DIGITALREAD -128` = 0x0000800F (95_test_vectors.md). -/
theorem test_decode_digitalRead : decode [0b00000000_00000000_10000000_000_01111] = .ok (.digitalRead 0x80, []) := by decide
theorem test_decode_digitalReadPort : decode [0x00000010] = .ok (.digitalReadPort, []) := by decide

/-- The illegal words of 95_test_vectors.md, each refused by name. -/
theorem test_decode_illegal :
    decodeHeader 0x00000000 = .error .reservedOpcode ∧ decodeHeader 0x00000011 = .error .reservedOpcode ∧
    decodeHeader 0x0000001F = .error .reservedOpcode ∧ decodeHeader 0x00000020 = .error .reservedBits ∧
    decodeHeader 0x00000021 = .error .reservedBits ∧ decodeHeader 0x00000101 = .error .unusedField ∧
    decodeHeader 0x0001000F = .error .unusedField ∧ decodeHeader 0x0100000F = .error .unusedField ∧
    decodeHeader 0x0100010D = .error .unusedField ∧ decodeHeader 0x0000010A = .error .unusedField ∧
    decodeHeader 0x0001000A = .error .unusedField := by decide
theorem test_decode_illegal_payload : decode [0x0100000E, 0x00000100] = .error .payloadHighBits := by decide
theorem test_decode_missing : decode [] = .error .noWord ∧ decode [0x0100000E] = .error .payloadMissing := by decide

/-- What the host asks: a port row with LEN = 2 has two payload words of zeros. -/
theorem test_tableWord : decodeTableWord 32 0x0200000A = some (.pinModePort [0, 0]) ∧
    decodeTableWord 32 0x00000000 = none ∧ decodeTableWord 32 0x00010309 = some (.pinMode 3 1) := by decide

/-! ### The pack and unpack engine (95_test_vectors.md) -/

theorem test_pack_fault : pack .fault #v[0, 1, 0, 1, 0, 1, 0, 1] = .ok 0xAA ∧
    pack .fault #v[2, 0, 0, 0, 0, 0, 0, 0] = .error .nonbinaryPack := by decide
theorem test_pack_positional : pack .positional #v[3, 1, 0, 0, 0, 0, 0, 0] = .ok 0x03 ∧
    pack .positional #v[0, 0, 0, 0, 0x0F, 0, 0, 0] = .ok 0xF0 ∧
    pack .positional #v[0, 0, 0, 0, 0, 0, 0, 0xFF] = .error .packOverflow := by decide
theorem test_unpack : unpack 0x5A = #v[0, 1, 0, 1, 1, 0, 1, 0] ∧ unpackBits 0x81 = #v[1, 0, 0, 0, 0, 0, 0, 1] := by decide

/-! ### Commands (95_test_vectors.md) -/

theorem test_isConnected_absent : seen (run (answers [some failed]) [0x00000001]) = some (0x0100, [.probe 0x27 0]) := by decide
theorem test_begin_present : seen (run fresh [0x00000002]) = some (0x0101, [.probe 0x27 1]) := by decide
/-- E1. -/
theorem test_setMode : seen (run fresh [0x00000003]) = some (0x0000, [.write 0x27 .configuration 0x00]) := by decide
theorem test_setMode_write_fails :
    seen (run (answers [some failed]) [0x00000003]) = some (0x0205, [.writeFail 0x27 .configuration 0x00]) := by decide
theorem test_getMode : (after (run (onDevice 0 0 0xF0 0) [0x00000004])).map (fun s => (s.rsp, s.mode)) =
    some (0x01F0, #v[0, 0, 0, 0, 1, 1, 1, 1]) := by decide
theorem test_setInversion : seen (run fresh [0x00000005]) = some (0x0000, [.write 0x27 .inversion 0x00]) := by decide
theorem test_getInversion : (after (run (onDevice 0 0x81 0 0) [0x00000006])).map (fun s => (s.rsp, s.inv)) =
    some (0x0181, #v[1, 0, 0, 0, 0, 0, 0, 1]) := by decide
/-- Positional: OUT = [2,0,…] writes 0x02 (95_test_vectors.md). -/
theorem test_setGpio : seen (run { positional with out := #v[2, 0, 0, 0, 0, 0, 0, 0] } [0x00000007]) =
    some (0x0000, [.write 0x27 .outputPort 0x02]) := by decide
theorem test_getGpio : (after (run (onDevice 0 0xFF 0 0x0F) [0x00000008])).map (fun s => (s.rsp, s.inp, s.out)) =
    some (0x01F0, #v[0, 0, 0, 0, 1, 1, 1, 1], #v[0, 0, 0, 0, 0, 0, 0, 0]) := by decide
theorem test_getGpio_read_fails : (after (run (answers [some failed]) [0x00000008])).map (fun s => (s.rsp, s.faultCode, s.hist)) =
    some (0x0204, 0x04, [.readFail 0x27 .inputPort]) := by decide
/-- E2. -/
theorem test_pinMode : (after (run fresh [0x00010309])).map (fun s => (s.mode, s.hist)) =
    some (#v[0, 0, 0, 1, 0, 0, 0, 0], [.write 0x27 .configuration 0x08]) := by decide
/-- E7, and a value of 2 with a valid pin: no-ops. -/
theorem test_pinMode_noop : seen (run fresh [0x0001FF09]) = some (0x0000, []) ∧ seen (run fresh [0x00010809]) = some (0x0000, []) ∧
    seen (run fresh [0x00020009]) = some (0x0000, []) := by decide
theorem test_pinModePort : (after (run fresh (0x0800000A :: words [1, 1, 1, 1, 0, 0, 0, 0]))).map (fun s => (s.mode, s.hist)) =
    some (#v[1, 1, 1, 1, 0, 0, 0, 0], [.write 0x27 .configuration 0x0F]) := by decide
theorem test_pinModePort_nonbinary :
    (after (run fresh (0x0800000A :: words [2, 0, 0, 0, 0, 0, 0, 0]))).map (fun s => (s.mode, s.rsp, s.fsm, s.hist)) =
    some (#v[2, 0, 0, 0, 0, 0, 0, 0], 0x0202, .fault, []) := by decide
theorem test_invertPin_validates : seen (run fresh [0x0002030B]) = some (0x0000, []) ∧
    seen (run fresh [0x0001000B]) = some (0x0000, [.write 0x27 .inversion 0x01]) := by decide
theorem test_invertPin_unchecked :
    (after (run { fresh with cfg := { fresh.cfg with invertPinValidates := false } } [0x0002030B])).map
      (fun s => (s.inv, s.rsp, s.hist)) = some (#v[0, 0, 0, 2, 0, 0, 0, 0], 0x0202, []) := by decide
theorem test_invertPinPort : seen (run fresh (0x0800000C :: words [0, 0, 0, 0, 0, 0, 0, 1])) =
    some (0x0000, [.write 0x27 .inversion 0x80]) := by decide
/-- P2 at k = 1. -/
theorem test_digitalWrite : seen (run { fresh with out := #v[1, 0, 1, 0, 1, 0, 1, 0] } [0x0001010D]) =
    some (0x0000, [.write 0x27 .outputPort 0x57]) := by decide
/-- P5: OUT[7] = 2 overflows under `positional`, after the store. -/
theorem test_digitalWrite_overflow :
    (after (run { positional with out := #v[2, 0, 0, 0, 0, 0, 0, 0] } [0x0002070D])).map (fun s => (s.out, s.rsp, s.hist)) =
    some (#v[2, 0, 0, 0, 0, 0, 0, 2], 0x0203, []) := by decide
/-- E3. -/
theorem test_digitalWritePort : seen (run fresh (0x0800000E :: words [1, 0, 1, 0, 1, 0, 1, 0])) =
    some (0x0000, [.write 0x27 .outputPort 0x55]) := by decide
/-- E8: a list of 7 is a no-op, and all its words are taken. -/
theorem test_digitalWritePort_seven : (after (run fresh (0x0700000E :: words [1, 0, 1, 0, 1, 0, 1]))).map
    (fun s => (s.rsp, s.hist, s.cmdIn, s.out)) = some (0x0000, [], [], #v[0, 0, 0, 0, 0, 0, 0, 0]) := by decide
/-- E4. -/
theorem test_digitalRead : (after (run (onDevice 0 0x01 0 0x80) [0x0000000F])).map (fun s => (s.rsp, s.inp)) =
    some (0x0101, #v[1, 0, 0, 0, 0, 0, 0, 1]) := by decide
/-- Absence is not LOW (R198). -/
theorem test_digitalRead_absent : seen (run fresh [0x0000080F]) = some (0x0000, []) ∧
    seen (run fresh [0x0000000F]) = some (0x0100, [.read 0x27 .inputPort 0x00]) := by decide
theorem test_digitalReadPort : (after (run (onDevice 0 0 0 0x3C) [0x00000010])).map (fun s => (s.rsp, s.inp)) =
    some (0x013C, #v[0, 0, 1, 1, 1, 1, 0, 0]) := by decide

/-! ### The controller -/

/-- An illegal third payload word (95_test_vectors.md): OUT unchanged, no bus event, the words after it still offered. -/
theorem test_illegal_payload :
    (after (run fresh [0x0800000E, 0x00000001, 0x00000000, 0x00000100, 0x00000007])).map
      (fun s => (s.rsp, s.out, s.hist, s.cmdIn)) = some (0x0201, #v[0, 0, 0, 0, 0, 0, 0, 0], [], [0x00000007]) := by decide
/-- Two of three payload words: RECV, LISTCNT = 2. -/
theorem test_recv : (after (run fresh [0x0300000E, 0x00000001, 0x00000009])).map
    (fun s => (s.fsm, s.listCnt, s.listBuf.toList.take 2, s.hdr)) = some (.recv, 2, [1, 9], 0x0300000E) := by decide
/-- P5: in FAULT a word is not consumed. -/
theorem test_fault_sticky : (after (run { fresh with fsm := .fault, rsp := 0x0202 } [0x00000001])).map
    (fun s => (s.rsp, s.cmdIn, s.hist)) = some (0x0202, [0x00000001], []) := by decide
/-- Reset leaves FAULT with the address supplied. -/
theorem test_reset_in_fault : (after (step { fresh with
    fsm := .fault, faultCode := 2, rsp := 0x0202, out := #v[0, 0, 5, 0, 0, 0, 0, 0], resetReq := some ⟨some 0x20⟩ })).map
      (fun s => (s.fsm, s.faultCode, s.rsp, s.out, s.cfg.addr)) =
    some (.idle, 0, 0, #v[0, 0, 0, 0, 0, 0, 0, 0], 0x20) := by decide
/-- No answer yet: BUS; one poll later the command ends. -/
theorem test_bus_waits : (after (run (answers [none]) [0x00000008])).map (fun s => (s.fsm, s.rsp, s.hist)) =
    some (.bus (.read .inp), 0x0000, []) := by decide
theorem test_bus_completes : seen (step { answers [some done] with fsm := .bus (.read .inp) }) =
    some (0x0181, [.read 0x27 .inputPort 0x81]) := by decide
/-- What the host asks: the very next step runs the row's command. -/
theorem test_withFetchWord : seen (step (fresh.withFetchWord 32 0x00010309)) = some (0x0000, [.write 0x27 .configuration 0x08]) ∧
    seen (step (fresh.withFetchWord 32 0x0200000A)) = some (0x0000, []) := by decide
/-- The unconstrained oracle: whatever it answers, the command goes on. -/
theorem test_free_oracle_goes_on : (after (run State.reset [0x00000004])).isSome = true := rfl

/-! ### The assembler (R91) -/

theorem test_assemble : assemble "PINMODE 3, IN" = .ok [0x00010309] ∧ assemble "digitalRead -1" = .ok [0x0000FF0F] ∧
    assemble "PINMODE 0, HIGH" = .ok [0x00010009] := by decide +kernel
theorem test_assemble_list : assemble "INVERTPINPORT [0, INVERT, 0x1F]" = .ok [0x0300000C, 0x00, 0x01, 0x1F] ∧
    assemble "PINMODEPORT []" = .ok [0x0000000A] := by decide +kernel
theorem test_assemble_refuses : assemble "PINMODE 128, 0" = .error .pinRange ∧ assemble "PINMODE 0, 256" = .error .valueRange ∧
    assemble "SETMODE 1" = .error .operandForm ∧ assemble "NOP" = .error .unknownMnemonic := by decide +kernel

/-! ### Witnesses: each meets the hypotheses of the statement it is named after, at the boundaries of its clauses -/

theorem witness_DecodeOfEncode : (Instr.pinModePort (List.replicate 255 7)).wellFormed = true := by decide +kernel
theorem witness_EncodeOfDecode :
    decode [0x0200000E, 0x000000FF, 0x00000000, 0x00000003] = .ok (.digitalWritePort [0xFF, 0], [0x00000003]) := by decide
theorem witness_AssembledCommandsFitTheirFields :
    assembleChars ['D', 'I', 'G', 'I', 'T', 'A', 'L', 'R', 'E', 'A', 'D', ' ', '7'] = .ok (.digitalRead 7) ∧
    asmInt ['-', '1', '2', '8'] = some (-128) ∧ asmInt ['1', '2', '8'] = some 128 ∧ asmInt ['1', '2', '7'] = some 127 ∧
    asmInt ['-', '1', '2', '9'] = some (-129) := by decide +kernel
/-- The values 255, 256 and -1, a symbol, and a list. -/
theorem witness_AssembledCommandsFitTheirFields_values :
    asmInt ['2', '5', '5'] = some 255 ∧ asmSymbol ['2', '5', '5'] = none ∧ asmInt ['2', '5', '6'] = some 256 ∧
    asmSymbol ['2', '5', '6'] = none ∧ asmInt ['-', '1'] = some (-1) ∧ asmSymbol ['-', '1'] = none ∧
    asmSymbol ['I', 'N'] = some 1 ∧ asmValues [['7'], [' ', 'I', 'N']] = .ok [7, 1] ∧
    asmTrim ['7', ',', ' ', 'I', 'N'] ≠ [] ∧ asmValues (asmSplit (asmTrim ['7', ',', ' ', 'I', 'N'])) = .ok [7, 1] := by
  decide +kernel
theorem witness_LegalHeadersAreTheRowsOfTheTable : decodeHeader 0x0000FF0F = .ok .digitalRead := by decide
theorem witness_PackAndUnpackRoundTrip : ∀ i : Fin 8, (#v[1, 0, 0, 0, 0, 0, 0, 1] : PinArray)[i] = 0 ∨
    (#v[1, 0, 0, 0, 0, 0, 0, 1] : PinArray)[i] = 1 := by decide
theorem witness_PackAndUnpackRoundTrip_nonbinary : (#v[0, 0, 0, 0, 0, 0, 0, 2] : PinArray)[(7 : Fin 8)] ≠ 0 ∧
    (#v[0, 0, 0, 0, 0, 0, 0, 2] : PinArray)[(7 : Fin 8)] ≠ 1 ∧ pack .positional #v[2, 0, 0, 0, 0, 0, 0, 0] = .ok 0x02 := by decide
theorem witness_PackUnderFaultPolicy : (∃ i : Fin 8, 1 < (#v[0, 0, 0, 0, 0, 0, 0, 2] : PinArray)[i].toNat) ∧
    ∀ i : Fin 8, (#v[1, 0, 0, 0, 0, 0, 0, 1] : PinArray)[i].toNat ≤ 1 := by decide
theorem witness_PackUnderPositionalPolicy :
    (∃ i : Fin 8, 0x100 ≤ (#v[0, 0, 0, 0, 0, 0, 0, 2] : PinArray)[i].toNat * 2 ^ i.val) ∧
    ∀ i : Fin 8, (#v[0xFF, 0, 0, 0, 0x0F, 0, 0, 1] : PinArray)[i].toNat * 2 ^ i.val < 0x100 := by decide

/-- A state that some host and transport lead to. -/
theorem fresh_reachable : Reachable fresh := .construct _ _ _ _ (by decide)

theorem witness_PackSafety : Reachable fresh ∧ fresh.fsm ≠ .fault ∧
    (∃ t, exec (.digitalWrite 7 2) fresh = .next t ∧ t.faultCode = 0x02) ∧
    ∃ t, exec (.pinModePort [0, 0, 0, 0, 0, 0, 0, 2]) fresh = .next t ∧ t.faultCode = 0x02 :=
  ⟨fresh_reachable, by decide, ⟨_, rfl, by decide⟩, ⟨_, rfl, by decide⟩⟩
/-- The same under `positional`, with INVERTPIN unchecked. -/
theorem witness_PackSafety_positional :
    ∃ s, Reachable s ∧ s.fsm ≠ .fault ∧ s.cfg.nonbinaryPack = .positional ∧ s.cfg.invertPinValidates = false ∧
      ∃ t, exec (.invertPin 7 2) s = .next t ∧ t.faultCode = 0x03 :=
  ⟨_, .construct ⟨0x27, .positional, false, 1⟩ [] none (.reference ⟨0, 0, 0, 0⟩) (by decide), by decide, by decide, by decide,
    _, rfl, by decide⟩
theorem witness_ResponseShape : Reachable fresh := fresh_reachable

/-- Reset contents pack under either policy. -/
theorem fresh_packs : fresh.Packs ∧ positional.Packs :=
  ⟨fun a => by cases a <;> exact ⟨0, by decide⟩, fun a => by cases a <;> exact ⟨0, by decide⟩⟩

/-- The three answers of ProbeEnds, ReadEnds and WriteEnds: completed, failed, not yet, for every transaction; so every
command's statement has its transaction hypotheses met. -/
theorem witness_transactions (x : Txn) :
    (answers [some done]).transport.ask x = (some done, .draws []) ∧ done.ok = true ∧
    (answers [some failed]).transport.ask x = (some failed, .draws []) ∧ failed.ok = false ∧
    (answers []).transport.ask x = (none, .draws []) := ⟨rfl, rfl, rfl, rfl, rfl⟩
theorem witness_IsConnectedDoesItsRule :
    (0xFF000001 : Word).extractLsb' 0 5 = 0x01#5 ∧ (0xFF000001 : Word) ≠ 0x00000001 ∧ (answers [some done]).transport.ask .probe = (some done, .draws []) ∧
    (answers []).transport.ask .probe = (none, .draws []) := ⟨by decide, by decide, rfl, rfl⟩
theorem witness_BeginDoesItsRule : (answers [some failed]).transport.ask .probe = (some failed, .draws []) ∧
    (answers []).transport.ask .probe = (none, .draws []) := ⟨rfl, rfl⟩

/-- FlushEnds: both answers of PACK on an array, under both policies. -/
theorem witness_flush :
    pack .fault fresh.mode = .ok 0x00 ∧ pack .fault #v[0, 0, 0, 0, 0, 0, 0, 2] = .error .nonbinaryPack ∧
    pack .positional #v[0, 0, 0, 0, 0, 0, 0, 1] = .ok 0x80 ∧ pack .positional #v[0, 0, 0, 0, 0, 0, 0, 2] = .error .packOverflow := by
  decide

/-- The invariant, for the clauses that assume it. -/
theorem fresh_inv : fresh.Inv where
  config := by decide
  packs _ := fresh_packs.1
  unfaulted _ := ⟨rfl, .inl rfl⟩
  faulted h := nomatch h
  receiving h := nomatch h
  notExec := by decide

theorem positional_inv : positional.Inv where
  config := by decide
  packs _ := fresh_packs.2
  unfaulted _ := ⟨rfl, .inl rfl⟩
  faulted h := nomatch h
  receiving h := nomatch h
  notExec := by decide

theorem witness_SetModeDoesItsRule : fresh.Inv ∧ fresh.fsm ≠ .fault ∧ pack fresh.cfg.nonbinaryPack fresh.mode = .ok 0 :=
  ⟨fresh_inv, by decide, by decide⟩
theorem witness_SetInversionDoesItsRule : fresh.Inv ∧ fresh.fsm ≠ .fault ∧ pack fresh.cfg.nonbinaryPack fresh.inv = .ok 0 :=
  ⟨fresh_inv, by decide, by decide⟩
theorem witness_SetGpioDoesItsRule : fresh.Inv ∧ fresh.fsm ≠ .fault ∧ pack fresh.cfg.nonbinaryPack fresh.out = .ok 0 :=
  ⟨fresh_inv, by decide, by decide⟩
theorem witness_GetModeDoesItsRule :
    (answers [some done]).transport.ask (.read .configuration) = (some done, .draws []) ∧ done.ok = true ∧ failed.ok = false :=
  ⟨rfl, rfl, rfl⟩
theorem witness_GetInversionDoesItsRule :
    (answers [some failed]).transport.ask (.read .inversion) = (some failed, .draws []) ∧ done.ok = true ∧ failed.ok = false :=
  ⟨rfl, rfl, rfl⟩
theorem witness_GetGpioDoesItsRule :
    (answers [some done]).transport.ask (.read .inputPort) = (some done, .draws []) ∧ done.ok = true ∧ failed.ok = false :=
  ⟨rfl, rfl, rfl⟩
/-- Pins -1, 0, 7 and 8 on the signed value, and the values 1 and 2. -/
theorem witness_PinModeDoesItsRule :
    ¬(((1 : Byte) = 0 ∨ (1 : Byte) = 1) ∧ 0 ≤ (0xFF : Byte).toInt ∧ (0xFF : Byte).toInt ≤ 7) ∧
    ¬(((1 : Byte) = 0 ∨ (1 : Byte) = 1) ∧ 0 ≤ (8 : Byte).toInt ∧ (8 : Byte).toInt ≤ 7) ∧
    ¬(((2 : Byte) = 0 ∨ (2 : Byte) = 1) ∧ 0 ≤ (7 : Byte).toInt ∧ (7 : Byte).toInt ≤ 7) ∧
    (0 : Byte).toInt = (0 : Fin 8).val ∧ (7 : Byte).toInt = (7 : Fin 8).val ∧ ((1 : Byte) = 0 ∨ (1 : Byte) = 1) ∧
    pack .fault ((fresh.mode).set 7 1) = .ok 0x80 ∧ pack .fault ((fresh.mode.set 7 2).set 0 1) = .error .nonbinaryPack := by
  decide
theorem witness_PortLists : ([] : List Byte).length ≠ 8 ∧ (List.replicate 7 (1 : Byte)).length ≠ 8 ∧
    (List.replicate 9 (1 : Byte)).length ≠ 8 ∧ (List.replicate 255 (1 : Byte)).length ≠ 8 ∧
    pack .fault (#v[1, 1, 1, 1, 0, 0, 0, 0] : PinArray) = .ok 0x0F ∧
    pack .fault (#v[2, 0, 0, 0, 0, 0, 0, 0] : PinArray) = .error .nonbinaryPack := by decide +kernel
theorem witness_PinModePortDoesItsRule : ([] : List Byte).length ≠ 8 ∧ (#v[1, 1, 1, 1, 0, 0, 0, 0] : PinArray).toList.length = 8 := by
  decide
theorem witness_InvertPinPortDoesItsRule : (List.replicate 7 (1 : Byte)).length ≠ 8 ∧
    (#v[0, 0, 0, 0, 0, 0, 0, 1] : PinArray).toList.length = 8 := by decide
theorem witness_DigitalWritePortDoesItsRule : (List.replicate 9 (1 : Byte)).length ≠ 8 ∧
    (#v[1, 0, 1, 0, 1, 0, 1, 0] : PinArray).toList.length = 8 := by decide
theorem witness_InvertPinDoesItsRule :
    ¬((fresh.cfg.invertPinValidates = false ∨ (2 : Byte) = 0 ∨ (2 : Byte) = 1) ∧ 0 ≤ (3 : Byte).toInt ∧ (3 : Byte).toInt ≤ 7) ∧
    ¬((fresh.cfg.invertPinValidates = false ∨ (1 : Byte) = 0 ∨ (1 : Byte) = 1) ∧ 0 ≤ (8 : Byte).toInt ∧ (8 : Byte).toInt ≤ 7) ∧
    (0 : Byte).toInt = (0 : Fin 8).val ∧ (7 : Byte).toInt = (7 : Fin 8).val ∧ (1 : Byte).toNat ≤ 1 ∧
    fresh.cfg.nonbinaryPack = .fault ∧ 1 < (2 : Byte).toNat ∧
    positional.cfg.nonbinaryPack = .positional ∧ (0x7F : Byte).toNat * 2 ^ (1 : Fin 8).val < 0x100 ∧
    0x100 ≤ (0x80 : Byte).toNat * 2 ^ (1 : Fin 8).val := by decide
/-- A state that meets the premises of InvertPin's and DigitalWrite's clauses on values that pack positionally. -/
theorem witness_positional_clause : positional.Inv ∧ positional.fsm ≠ .fault ∧
    { positional.cfg with invertPinValidates := false }.nonbinaryPack = .positional := ⟨positional_inv, by decide, rfl⟩
theorem witness_DigitalWriteDoesItsRule :
    ¬(0 ≤ (0xFF : Byte).toInt ∧ (0xFF : Byte).toInt ≤ 7) ∧ ¬(0 ≤ (8 : Byte).toInt ∧ (8 : Byte).toInt ≤ 7) ∧
    (0 : Byte).toInt = (0 : Fin 8).val ∧ (7 : Byte).toInt = (7 : Fin 8).val ∧ (1 : Byte).toNat ≤ 1 ∧
    fresh.cfg.nonbinaryPack = .fault ∧ 1 < (2 : Byte).toNat ∧
    positional.cfg.nonbinaryPack = .positional ∧ (0xFF : Byte).toNat * 2 ^ (0 : Fin 8).val < 0x100 ∧
    0x100 ≤ (2 : Byte).toNat * 2 ^ (7 : Fin 8).val := by decide
theorem witness_DigitalReadDoesItsRule :
    ¬(0 ≤ (0x80 : Byte).toInt ∧ (0x80 : Byte).toInt ≤ 7) ∧ ¬(0 ≤ (8 : Byte).toInt ∧ (8 : Byte).toInt ≤ 7) ∧
    (0 : Byte).toInt = (0 : Fin 8).val ∧ (7 : Byte).toInt = (7 : Fin 8).val := by decide
theorem witness_DigitalReadPortDoesItsRule :
    (answers []).transport.ask (.read .inputPort) = (none, .draws []) ∧
    (answers [some done]).transport.ask (.read .inputPort) = (some done, .draws []) ∧ done.ok = true ∧ failed.ok = false :=
  ⟨rfl, rfl, rfl, rfl⟩

theorem witness_InvalidArgumentsAreNoops :
    (0xFF : Byte).toInt < 0 ∧ 7 < (8 : Byte).toInt ∧ 1 < (2 : Byte).toNat ∧ fresh.cfg.invertPinValidates = true ∧
    ([] : List Byte).length ≠ 8 ∧ (List.replicate 9 (0 : Byte)).length ≠ 8 := by decide
theorem witness_TransactionsAreThoseOfTheTable :
    (∃ t, exec .getGpio (answers [some done]) = .next t ∧ t.hist = [.read 0x27 .inputPort 0x81]) ∧
    ∃ t, step { fresh with cmdIn := [0x00000003] } = .next t ∧ t.hist = [.write 0x27 .configuration 0x00] :=
  ⟨⟨_, rfl, by decide⟩, ⟨_, rfl, by decide⟩⟩
theorem witness_CommandsWriteOnlyTheirArrays :
    ∃ t, exec (.digitalWrite 7 1) fresh = .next t ∧ t.out ≠ fresh.out ∧ t.mode = fresh.mode := ⟨_, rfl, by decide, by decide⟩
theorem witness_ValidAndFaultFlags :
    (∃ t, exec (.digitalRead 7) fresh = .next t ∧ t.fsm = .idle) ∧ (∃ t, exec (.digitalRead 8) fresh = .next t ∧ t.fsm = .idle) ∧
    ∃ t, exec .getGpio (answers [some failed]) = .next t ∧ t.fsm = .fault :=
  ⟨⟨_, rfl, by decide⟩, ⟨_, rfl, by decide⟩, ⟨_, rfl, by decide⟩⟩
theorem witness_FaultsArePrecise :
    (∃ t, exec (.digitalWrite 2 5) fresh = .next t ∧ t.fsm = .fault ∧ t.faultCode = 0x02) ∧
    (∃ t, exec .setMode (answers [some failed]) = .next t ∧ t.fsm = .fault ∧ t.faultCode = 0x05) ∧
    ∃ t, exec .getMode (answers [some failed]) = .next t ∧ t.fsm = .fault ∧ t.faultCode = 0x04 :=
  ⟨⟨_, rfl, by decide, by decide⟩, ⟨_, rfl, by decide, by decide⟩, ⟨_, rfl, by decide, by decide⟩⟩
theorem witness_PerPinSetsWriteTheWholeCachedArray :
    (∀ (a : CacheArray) (j : Fin 8), (fresh.cached a)[j] = 0 ∨ (fresh.cached a)[j] = 1) ∧ (7 : Byte).toInt = (7 : Fin 8).val ∧
    (∃ t, exec (.pinMode 7 1) fresh = .next t ∧ t.fsm = .idle) ∧ (∃ t, exec (.invertPin 7 1) fresh = .next t ∧ t.fsm = .idle) ∧
    ∃ t, exec (.digitalWrite 7 1) fresh = .next t ∧ t.fsm = .idle :=
  ⟨fun a => by cases a <;> decide, by decide, ⟨_, rfl, by decide⟩, ⟨_, rfl, by decide⟩, ⟨_, rfl, by decide⟩⟩
theorem witness_ResponsesDoNotShowTheCache :
    ∃ t t', exec (.digitalRead 0) fresh = .next t ∧
      exec (.digitalRead 0) { fresh with mode := #v[1, 1, 1, 1, 1, 1, 1, 1], inv := fresh.inv, out := fresh.out, inp := fresh.inp } = .next t' ∧
      t.fsm = .idle ∧ t'.fsm = .idle := ⟨_, _, rfl, rfl, by decide, by decide⟩
theorem witness_PinModeThenGetModeReturnsTheCachedModes :
    fresh.transport = .reference ⟨0, 0, 0, 0⟩ ∧ (∀ j : Fin 8, fresh.mode[j] = 0 ∨ fresh.mode[j] = 1) ∧
    ((1 : Byte) = 0 ∨ (1 : Byte) = 1) := by decide

theorem witness_StepRunsTheDecodedCommand :
    configRefusal fresh.cfg = none ∧ fresh.resetReq = none ∧ fresh.fsm = .idle ∧
    ({ fresh with cmdIn := [0x0100000A, 0x00000001, 0x00000003] } : State).cmdIn = 0x0100000A :: [0x00000001, 0x00000003] ∧
    decode (0x0100000A :: [0x00000001, 0x00000003]) = .ok (.pinModePort [1], [0x00000003]) := by decide
theorem witness_IllegalHeaderFaults : configRefusal fresh.cfg = none ∧ fresh.resetReq = none ∧ fresh.fsm = .idle ∧
    decodeHeader 0x00000011 = .error .reservedOpcode := by decide
theorem witness_IllegalPayloadWordFaults :
    configRefusal fresh.cfg = none ∧ fresh.resetReq = none ∧ fresh.fsm = .idle ∧
    ({ fresh with cmdIn := [0x0100000C, 0x00000100, 0x00000007] } : State).cmdIn = 0x0100000C :: ([] ++ 0x00000100 :: [0x00000007]) ∧
    decodeHeader 0x0100000C = .ok .invertPinPort ∧ Opcode.invertPinPort.format = .l ∧
    ([] : List Word).length < (lenField 0x0100000C).toNat ∧ payloadLegal 0x00000100 = false ∧
    [0x00000001].length < (lenField 0x0200000C).toNat ∧ (∀ w ∈ ([0x00000001] : List Word), payloadLegal w = true) :=
  ⟨by decide, rfl, rfl, rfl, by decide, rfl, by decide, by decide, by decide, fun w hw => by rw [List.mem_singleton.1 hw]; decide⟩
theorem witness_IncompletePayloadWaitsInRecv :
    configRefusal fresh.cfg = none ∧ fresh.resetReq = none ∧ fresh.fsm = .idle ∧
    ({ fresh with cmdIn := [0xFF00000A, 0x000000FF] } : State).cmdIn = 0xFF00000A :: [0x000000FF] ∧
    decodeHeader 0xFF00000A = .ok .pinModePort ∧ Opcode.pinModePort.format = .l ∧
    [0x000000FF].length < (lenField 0xFF00000A).toNat ∧ (∀ w ∈ ([0x000000FF] : List Word), payloadLegal w = true) :=
  ⟨by decide, rfl, rfl, rfl, by decide, rfl, by decide, fun w hw => by rw [List.mem_singleton.1 hw]; decide⟩
theorem witness_PayloadMayArriveInPieces :
    ∃ t, step { fresh with cmdIn := [0x0200000A, 0x00000001] } = .next t ∧ t.fsm = .recv := ⟨_, rfl, by decide⟩
/-- A transport with no answers left never answers. -/
theorem draws_neverAnswers (x : Txn) : (Transport.draws []).NeverAnswers x := by
  intro n
  induction n with
  | zero => rfl
  | succ n ih => exact ih
/-- Both answers, for a read, a presence query and a write. -/
theorem witness_BusAnswerEndsTheCommand :
    configRefusal fresh.cfg = none ∧ fresh.resetReq = none ∧ done.ok = true ∧ failed.ok = false ∧
    (answers [some done]).transport.ask (BusOp.read (.inpPin 7)).txn = (some done, .draws []) ∧
    (answers [some failed]).transport.ask (BusOp.write .out 0xFF).txn = (some failed, .draws []) ∧
    (fresh.transport.ask BusOp.probe.txn).1 = some ⟨true, 0, 1⟩ ∧
    ({ answers [some done] with fsm := .bus (.read (.inpPin 7)) } : State).fsm = .bus (.read (.inpPin 7)) := by decide
/-- Both sides of StuckStatesAreTheEndlessWaits, in BUS and in RECV. -/
theorem witness_StuckStatesAreTheEndlessWaits :
    (configRefusal (answers []).cfg = none ∧ (answers []).resetReq = none ∧
      (answers []).transport.NeverAnswers (BusOp.read .inp).txn) ∧
    ({ fresh with fsm := .recv, hdr := 0x0100000A } : State).listCnt.toNat < (lenField 0x0100000A).toNat :=
  ⟨⟨by decide, rfl, draws_neverAnswers _⟩, by decide⟩
theorem witness_BusWaitsForTheTransport_never : (answers []).transport.NeverAnswers (BusOp.read .inp).txn := draws_neverAnswers _
theorem witness_BusWaitsForTheTransport :
    configRefusal (answers []).cfg = none ∧ (answers []).resetReq = none ∧ (answers []).transport.ask (BusOp.read .inp).txn = (none, .draws []) ∧ (answers []).transport = .draws [] ∧
    ({ answers [] with fsm := .bus (.read .inp) } : State).fsm = .bus (.read .inp) := by decide
theorem witness_BusAnswerMayComeLater :
    (answers [none, some done]).transport = .draws (none :: [some done]) ∧
    (∃ t, exec .getGpio (answers [none, some done]) = .next t ∧ t.fsm = .bus (.read .inp)) ∧
    configRefusal (answers [none, some done]).cfg = none ∧ (answers [none, some done]).resetReq = none :=
  ⟨rfl, ⟨_, rfl, by decide⟩, by decide, rfl⟩
theorem witness_FaultStateIsQuiescent : ({ fresh with fsm := .fault } : State).fsm = .fault ∧ fresh.resetReq = none ∧
    configRefusal fresh.cfg = none := by decide
theorem witness_OnlyResetLeavesFault :
    ∃ t, step { fresh with fsm := .fault, resetReq := some ⟨none⟩ } = .next t ∧ t.fsm ≠ .fault := ⟨_, rfl, by decide⟩
theorem witness_ResetSetsEveryRegister :
    configRefusal fresh.cfg = none ∧ (∀ op, ({ fresh with fsm := .recv } : State).fsm ≠ .bus op) ∧
    (none : Option Nat).getD 0x27 ∈ addrList ∧ (some 0x20 : Option Nat).getD 0x27 ∈ addrList := ⟨by decide, nofun, by decide, by decide⟩
theorem witness_ResetIsRefusedOnlyDuringBus : configRefusal fresh.cfg = none ∧
    ({ fresh with fsm := .recv, resetReq := some ⟨some 0x20⟩ } : State).fsm = .recv ∧
    (some 0x20 : Option Nat).getD 0x27 ∈ addrList := by decide
theorem witness_ResetIsRefusedOnlyDuringBus_bus :
    step { fresh with fsm := .bus .probe, resetReq := some ⟨none⟩ } = .refused .resetDuringBus := rfl
theorem witness_UnsupportedConfigurationsAreRefused :
    step { fresh with cfg := { fresh.cfg with hosts := 2 } } = .refused .notOneHost ∧
    step { fresh with cfg := { fresh.cfg with addr := 0x28 } } = .refused .addrNotListed ∧
    step { fresh with resetReq := some ⟨some 0x1F⟩ } = .refused .addrNotListed := ⟨rfl, rfl, rfl⟩
theorem witness_EveryStepKeepsTheInvariant : fresh.Inv ∧ ∃ t, step fresh = .next t := ⟨fresh_inv, ⟨_, rfl⟩⟩
theorem witness_OnlyResetsAreRefused : fresh.Inv := fresh_inv
theorem witness_ConfigurationIsFixed : (∃ t, step fresh = .next t) ∧ fresh.resetReq = none := ⟨⟨_, rfl⟩, rfl⟩
/-- Two states that differ in all three hidden registers. -/
theorem witness_HiddenRegistersCarryNoMeaning :
    SameButHidden fresh { fresh with hdr := 0x00000001, listCnt := 9, listBuf := storeEntry fresh.listBuf 0 5 } :=
  ⟨rfl, nofun, nofun⟩
theorem witness_NormalEndIsStable : configRefusal fresh.cfg = none ∧ fresh.EndsNormally := ⟨by decide, by decide, by decide, by decide⟩
theorem witness_ReferenceDeviceRemembersWrites : RemoteReg.inversion ≠ .inputPort ∧ RemoteReg.outputPort ≠ .inversion := by decide

end Sys2Proof.Tests
end

-- Proofs: the configuration
section
/-!
PROOFS. The configuration: which ones are refused (spec/00_scope.md R6, spec/60_exceptions.md R182), and what a step
leaves of it (spec/10_state.md R31, spec/70_reset_and_hazards.md R190).
-/

namespace Sys2Proof.Machine

/-! ### Refused configurations -/

theorem configRefusal_of_hosts {c : Config} (h : c.hosts ≠ 1) : configRefusal c = some .notOneHost := by
  simp [configRefusal, h]

theorem configRefusal_of_addr {c : Config} (hh : c.hosts = 1) (ha : c.addr ∉ addrList) :
    configRefusal c = some .addrNotListed := by
  simp [configRefusal, hh, ha]

/-- A configuration has a meaning exactly when one host drives the instance and the address is listed (R6, R182). -/
theorem configRefusal_eq_none_iff (c : Config) : configRefusal c = none ↔ c.hosts = 1 ∧ c.addr ∈ addrList := by
  by_cases hh : c.hosts = 1 <;> by_cases ha : c.addr ∈ addrList <;> simp [configRefusal, hh, ha]

/-- Outside BUS, a reset to an address that is not listed is refused (R6, R190). -/
theorem serviceReset_of_notListed {req : ResetReq} {s : State} (hb : ∀ op, s.fsm ≠ .bus op)
    (ha : req.addr.getD defaultAddr ∉ addrList) : serviceReset req s = .refused .addrNotListed := by
  rcases serviceReset_cases req s with ⟨op, hf, _⟩ | ⟨_, ⟨hin, _⟩ | ⟨_, h⟩⟩
  · exact absurd hf (hb op)
  · exact absurd hin ha
  · exact h

/-! ### A step that goes on -/

/-- A reset that goes on supplies a listed address, outside BUS, and constructs the machine anew (R190, R192). -/
theorem serviceReset_next {req : ResetReq} {s t : State} (h : serviceReset req s = .next t) :
    (∀ op, s.fsm ≠ .bus op) ∧ req.addr.getD defaultAddr ∈ addrList ∧ t = s.construct req.addr := by
  rcases serviceReset_cases req s with ⟨_, _, h'⟩ | ⟨hb, ⟨ha, h'⟩ | ⟨_, h'⟩⟩ <;> rw [h] at h'
  · exact nomatch h'
  · exact ⟨hb, ha, Host.Outcome.next.inj h'⟩
  · exact nomatch h'

/-- A step that goes on either serves a reset or, with none asked for, does what FSM decides. -/
theorem step_next_cases {s t : State} (h : step s = .next t) :
    (s.resetReq = none ∧ (fetchByFsm s).outcome = .next t) ∨
    ∃ req, s.resetReq = some req ∧ serviceReset req s = .next t := by
  have hc := configRefusal_of_step h
  cases hr : s.resetReq with
  | none => exact .inl ⟨rfl, step_of_running hc hr ▸ h⟩
  | some req => exact .inr ⟨req, rfl, step_of_reset hc hr ▸ h⟩

/-! ### What the controller does by itself leaves the configuration as it is -/

theorem launch_outcome_cfg {s t : State} (h : (launch s).outcome = .next t) : t.cfg = s.cfg := by
  rcases launch_cases s with ⟨_, _, hl⟩ | ⟨_, _, hl⟩ <;> rw [hl] at h
  · exact (exec_frame h).1
  · exact nomatch h

theorem receive_outcome_cfg {s t : State} {ws : List Word} (h : (receive ws s).outcome = .next t)
    (hs : s.cmdIn = ws) : t.cfg = s.cfg := by
  obtain ⟨_, _, _, _, _, hcases⟩ := receive_cases ws s hs
  rcases hcases with ⟨_, _, hw⟩ | ⟨_, _, _, _, _, hb⟩ | ⟨_, hl⟩
  · rw [hw] at h; cases h; rfl
  · rw [hb] at h; cases h; rfl
  · rw [hl] at h; exact (launch_outcome_cfg h).trans rfl

theorem takeHeader_outcome_cfg {h : Word} {rest : List Word} {s t : State}
    (ht : (takeHeader h rest s).outcome = .next t) : t.cfg = s.cfg := by
  cases ho : decodeHeader h with
  | error e => rw [takeHeader_error ho] at ht; cases ht; rfl
  | ok op =>
    by_cases hl : op.format = .l
    · by_cases hz : lenField h = 0
      · rw [takeHeader_empty ho hl hz] at ht
        exact (launch_outcome_cfg ht).trans rfl
      · rw [takeHeader_list ho hl hz] at ht
        exact (receive_outcome_cfg ht rfl).trans rfl
    · rw [takeHeader_single ho hl] at ht
      exact (launch_outcome_cfg ht).trans rfl

theorem fetchByFsm_outcome_cfg {s t : State} (h : (fetchByFsm s).outcome = .next t) : t.cfg = s.cfg := by
  cases hf : s.fsm with
  | idle =>
    cases hw : s.cmdIn with
    | nil => rw [fetchByFsm_idle_none hf hw] at h; cases h; rfl
    | cons w ws => rw [fetchByFsm_idle hf hw] at h; exact takeHeader_outcome_cfg h
  | recv => rw [fetchByFsm_recv hf] at h; exact receive_outcome_cfg h rfl
  | exec => rw [fetchByFsm_exec hf] at h; exact launch_outcome_cfg h
  | bus op => rw [fetchByFsm_bus hf] at h; cases h; exact s.awaitBus_cfg op
  | fault => rw [fetchByFsm_fault hf] at h; cases h; rfl

/-! ### The obligations -/

/-- Settles O54: with no reset asked for, no part of the controller writes the configuration, whose address is listed
since the step was not refused; a reset that is served writes ADDR alone, with the listed address it supplies. -/
theorem configurationIsFixed : Obligations.ConfigurationIsFixed := by
  intro s t h
  rcases step_next_cases h with ⟨_, hrun⟩ | ⟨req, hr, hserve⟩
  · have hcfg := fetchByFsm_outcome_cfg hrun
    have hlisted := ((configRefusal_eq_none_iff s.cfg).1 (configRefusal_of_step h)).2
    rw [hcfg]
    exact ⟨fun _ => rfl, rfl, hlisted⟩
  · obtain ⟨_, hlisted, rfl⟩ := serviceReset_next hserve
    refine ⟨fun hnone => ?_, rfl, hlisted⟩
    rw [hr] at hnone
    exact nomatch hnone

/-- Settles O48: the configuration is checked first, the hosts before the address, and then the address of a reset. -/
theorem unsupportedConfigurationsAreRefused : Obligations.UnsupportedConfigurationsAreRefused := by
  intro s
  refine ⟨fun hh => ?_, fun hh ha => ?_, fun a hc hr hb ha => ?_⟩
  · exact step_of_refused (configRefusal_of_hosts hh)
  · exact step_of_refused (configRefusal_of_addr hh ha)
  · exact (step_of_reset hc hr).trans (serviceReset_of_notListed hb ha)

end Sys2Proof.Machine
end

-- Proofs: transactions and commands
section
/-!
PROOFS. What an answered transaction does (spec/20_memory.md R63 to R66), and from it what every command can do
(spec/10_state.md R26 to R34, R47): how it ends, which transaction it makes, which arrays it writes, which response it gives.
-/

namespace Sys2Proof.Machine

/-! ### The response word (R27, R90) -/

@[simp] theorem rspValid_rspOf (v : Bool) (d : Byte) : rspValid (rspOf v d) = v := by
  cases v <;> simp [rspValid]

@[simp] theorem rspFaulted_rspOf (v : Bool) (d : Byte) : rspFaulted (rspOf v d) = false := by
  cases v <;> simp [rspFaulted]

@[simp] theorem rspValid_rspFault (c : Byte) : rspValid (rspFault c) = false := by
  simp [rspValid, rspFault]

@[simp] theorem rspFaulted_rspFault (c : Byte) : rspFaulted (rspFault c) = true := by
  simp [rspFaulted, rspFault]

@[simp] theorem rspData_rspFault (c : Byte) : rspData (rspFault c) = c := by
  apply BitVec.eq_of_getLsbD_eq
  intro j hj
  have hz : ∀ j, j < 8 → (0x0200#16).getLsbD j = false := by decide
  simp [rspData, rspFault, hj, hz j hj]
  omega

/-- Bits 15:10 of a response are zero (R27). -/
theorem rspOf_upper (v : Bool) (d : Byte) : (rspOf v d).extractLsb' 10 6 = 0 := by
  cases v with
  | false => simp
  | true =>
    apply BitVec.eq_of_getLsbD_eq
    intro j hj
    have hz : ∀ j, j < 6 → (0x0100#16).getLsbD (10 + j) = false := by decide
    simp [hz j hj, BitVec.getLsbD_of_ge d (10 + j) (by omega)]

theorem rspFault_upper (c : Byte) : (rspFault c).extractLsb' 10 6 = 0 := by
  apply BitVec.eq_of_getLsbD_eq
  intro j hj
  have hz : ∀ j, j < 6 → (0x0200#16).getLsbD (10 + j) = false := by decide
  simp [rspFault, hz j hj, BitVec.getLsbD_of_ge c (10 + j) (by omega)]

/-- The two forms of a response without fault are what `respond` puts into RSP (R90). -/
theorem State.rspUnfaulted_iff (s : State) : s.RspUnfaulted ↔ ∃ v d, s.rsp = rspOf v d := by
  constructor
  · rintro (h | ⟨d, h⟩)
    · exact ⟨false, 0, h⟩
    · exact ⟨true, d, h⟩
  · rintro ⟨_ | _, d, h⟩
    · exact .inl h
    · exact .inr ⟨d, h⟩

theorem State.respond_rspUnfaulted (s : State) (v : Bool) (d : Byte) : (s.respond v d).RspUnfaulted :=
  (State.rspUnfaulted_iff _).2 ⟨v, d, rfl⟩

/-- Every fault shows its code, one of R172, in RSP (R171). -/
theorem State.raiseFault_rspFaulted (s : State) (c : FaultCause) : (s.raiseFault c).RspFaulted :=
  ⟨by cases c <;> simp [FaultCause.code], rfl⟩

/-! ### An answered transaction -/

/-- What an answered transaction leaves in the bus history (R63 to R65). -/
def BusOp.event (op : BusOp) (addr : Nat) (d : BusDraw) : BusEvent :=
  match op with
  | .probe => .probe addr d.present
  | .read use => if d.ok then .read addr use.reg d.byte else .readFail addr use.reg
  | .write a b => if d.ok then .write addr a.reg b else .writeFail addr a.reg b

/-- The fault of a failed transfer; a presence query does not fail (R63 to R65). -/
def BusOp.failure (op : BusOp) (d : BusDraw) : Option FaultCause :=
  match op with
  | .probe => none
  | .read _ => if d.ok then none else some .busReadError
  | .write _ _ => if d.ok then none else some .busWriteError

/-- A completed read refreshes its array; the other transactions refresh nothing. -/
def BusOp.refreshed (op : BusOp) (s : State) (b : Byte) : State :=
  match op with
  | .read use => use.refreshed s b
  | .probe | .write _ _ => s

/-- RSP.VALID of a completed transaction's command (R32). -/
def BusOp.returnsValue : BusOp → Bool
  | .probe | .read _ => true
  | .write _ _ => false

/-- The data a completed transaction's command returns (R90). -/
def BusOp.returned (op : BusOp) (d : BusDraw) : Byte :=
  match op with
  | .probe => boolData d.present
  | .read use => use.returned d.byte
  | .write _ _ => 0

/-- The state once the transport has answered: its event is recorded. -/
def State.answered (s : State) (op : BusOp) (d : BusDraw) (tr : Transport) : State :=
  { s with transport := tr, hist := s.hist ++ [op.event s.cfg.addr d] }

@[simp] theorem BusOp.event_addr (op : BusOp) (addr : Nat) (d : BusDraw) : (op.event addr d).addr = addr := by
  cases op <;> simp only [BusOp.event]
  · rfl
  · split <;> rfl
  · split <;> rfl

@[simp] theorem BusOp.event_traffic (op : BusOp) (addr : Nat) (d : BusDraw) :
    (op.event addr d).traffic = op.traffic := by
  cases op <;> simp only [BusOp.event]
  · rfl
  · split <;> rfl
  · split <;> rfl

@[simp] theorem BusOp.refreshed_cfg (op : BusOp) (s : State) (b : Byte) : (op.refreshed s b).cfg = s.cfg := by
  rcases op with _ | (_ | _ | _ | _ | _) | _ <;> rfl
@[simp] theorem BusOp.refreshed_faultCode (op : BusOp) (s : State) (b : Byte) :
    (op.refreshed s b).faultCode = s.faultCode := by
  rcases op with _ | (_ | _ | _ | _ | _) | _ <;> rfl
@[simp] theorem BusOp.refreshed_hist (op : BusOp) (s : State) (b : Byte) : (op.refreshed s b).hist = s.hist := by
  rcases op with _ | (_ | _ | _ | _ | _) | _ <;> rfl
@[simp] theorem BusOp.refreshed_k (op : BusOp) (s : State) (b : Byte) : (op.refreshed s b).k = s.k := by
  rcases op with _ | (_ | _ | _ | _ | _) | _ <;> rfl

/-- A completed read is its refresh and the response with the byte or, for DIGITALREAD, its bit (R149, R150). -/
theorem State.finishRead_eq (s : State) (use : ReadUse) (b : Byte) :
    s.finishRead use b = (use.refreshed s b).respond true (use.returned b) := by
  cases use with
  | mode | inv | inp => rfl
  | inpPin i =>
    have hbit : boolData (unpackBits b)[i] = if b.getLsbD i.val then 0x01 else 0x00 := by
      rw [unpackBits_getElem]
      exact boolData_of_ite _
    simp only [State.finishRead, hbit]
    rfl
  | inpPort =>
    simp only [State.finishRead, orBits_unpackBits]
    rfl

/-- A transaction that completes: the refresh, then the response. -/
theorem State.finish_completed {s : State} {op : BusOp} {d : BusDraw} (tr : Transport) (h : op.failure d = none) :
    { s with transport := tr }.finish op d =
      (op.refreshed (s.answered op d tr) d.byte).respond op.returnsValue (op.returned d) := by
  cases op with
  | probe => rfl
  | read use =>
    have hok : d.ok = true := by simpa [BusOp.failure] using h
    simp only [State.finish, hok, ↓reduceIte, State.finishRead_eq, State.answered, BusOp.event]
    rfl
  | write a b =>
    have hok : d.ok = true := by simpa [BusOp.failure] using h
    simp only [State.finish, hok, ↓reduceIte, State.answered, BusOp.event]
    rfl

/-- A transaction that fails: the fault, with nothing refreshed. -/
theorem State.finish_failed {s : State} {op : BusOp} {d : BusDraw} {c : FaultCause} (tr : Transport)
    (h : op.failure d = some c) :
    { s with transport := tr }.finish op d = (s.answered op d tr).raiseFault c := by
  cases op with
  | probe => exact nomatch h
  | read use =>
    obtain ⟨hok, rfl⟩ : d.ok = false ∧ .busReadError = c := by simpa [BusOp.failure] using h
    simp [State.finish, hok, State.answered, BusOp.event, State.logEvent]
  | write a b =>
    obtain ⟨hok, rfl⟩ : d.ok = false ∧ .busWriteError = c := by simpa [BusOp.failure] using h
    simp [State.finish, hok, State.answered, BusOp.event, State.logEvent]

/-- Issuing a transaction is awaiting it: the FSM value it starts from does not survive. -/
theorem State.issue_eq (s : State) (op : BusOp) : s.issue op = s.awaitBus op := by
  rcases ha : s.transport.ask op.txn with ⟨_ | d, tr⟩
  · rw [State.issue_none ha, State.awaitBus_none ha]
  · rw [State.issue_some ha, State.awaitBus_some ha]
    cases hf : op.failure d with
    | none =>
      rw [State.finish_completed (s := { s with fsm := .bus op }) tr hf, State.finish_completed tr hf]
      rcases op with _ | (_ | _ | _ | _ | _) | _ <;> rfl
    | some c => rw [State.finish_failed (s := { s with fsm := .bus op }) tr hf, State.finish_failed tr hf]; rfl

/-- Everything that asking the transport can lead to: no answer yet, a completed transaction, or a failed one. -/
theorem State.awaitBus_cases (s : State) (op : BusOp) :
    (∃ tr, s.awaitBus op = { s with transport := tr, fsm := .bus op }) ∨
    (∃ d tr, s.transport.ask op.txn = (some d, tr) ∧ s.awaitBus op =
      (op.refreshed (s.answered op d tr) d.byte).respond op.returnsValue (op.returned d)) ∨
    ∃ d tr c, s.awaitBus op = (s.answered op d tr).raiseFault c := by
  rcases ha : s.transport.ask op.txn with ⟨_ | d, tr⟩
  · exact .inl ⟨tr, State.awaitBus_none ha⟩
  · cases hf : op.failure d with
    | none => exact .inr (.inl ⟨d, tr, rfl, (State.awaitBus_some ha).trans (State.finish_completed tr hf)⟩)
    | some c => exact .inr (.inr ⟨d, tr, c, (State.awaitBus_some ha).trans (State.finish_failed tr hf)⟩)

/-- Everything a flush can do: fault in PACK, or write the packed byte. -/
theorem State.flush_cases (s : State) (a : CacheArray) :
    (∃ c, s.flush a = s.raiseFault c) ∨
    ∃ b, pack s.cfg.nonbinaryPack (s.cached a) = .ok b ∧ s.flush a = s.awaitBus (.write a b) := by
  rcases pack_error_or_ok s.cfg.nonbinaryPack (s.cached a) with ⟨c, h⟩ | ⟨b, h⟩
  · exact .inl ⟨c, State.flush_error h⟩
  · exact .inr ⟨b, h, (State.flush_ok h).trans (s.issue_eq _)⟩

/-! ### The commands by what they return -/

/-- The commands that return a value when they complete (R32). -/
def ReturnsValue (i : Instr) : Prop :=
  i = .isConnected ∨ i = .beginCmd ∨ i = .getMode ∨ i = .getInversion ∨ i = .getGpio ∨ i = .digitalReadPort ∨
  ∃ p, i = .digitalRead p ∧ 0 ≤ p.toInt ∧ p.toInt ≤ 7

/-- The commands that store into a cache array what the host sends (R143 to R148). -/
def StoresInto (i : Instr) : CacheArray → Prop
  | .mode => (∃ p v, i = .pinMode p v) ∨ ∃ l, i = .pinModePort l
  | .inv => (∃ p v, i = .invertPin p v) ∨ ∃ l, i = .invertPinPort l
  | .out => (∃ p v, i = .digitalWrite p v) ∨ ∃ l, i = .digitalWritePort l

theorem CacheArray.reg_injective {a b : CacheArray} (h : a.reg = b.reg) : a = b := by
  revert h
  cases a <;> cases b <;> simp [CacheArray.reg]

/-- A command that stores what the host sends is a no-op, or updates its one array and flushes it. -/
theorem exec_stores {i : Instr} {a : CacheArray} (hi : StoresInto i a) (ht : trafficOf i = .write a.reg) (s : State) :
    exec i s = .next s.noop ∨ ∃ b v, trafficOf i = .write b.reg ∧ (v = s.cached b ∨ StoresInto i b) ∧
      exec i s = .next ((s.setCached b v).flush b) := by
  rcases exec_cases i s with h | ⟨op, hop, hw, _⟩ | ⟨b, v, hb, h⟩
  · exact .inl h
  · rw [ht] at hop
    cases op with
    | probe | read => exact nomatch hop
    | write a b => exact absurd rfl (hw a b)
  · have hab : a = b := CacheArray.reg_injective (Traffic.write.inj (ht.symm.trans hb))
    exact .inr ⟨b, v, hb, .inr (hab ▸ hi), h⟩

/-- A command that issues a transaction awaits it. -/
theorem exec_awaitBus {i : Instr} {s : State} {op : BusOp} (h : exec i s = .next (s.issue op)) :
    exec i s = .next (s.awaitBus op) := s.issue_eq op ▸ h

/-- Every command either returns the answer of one transaction, the same one in every state, or returns no value: then it
is a no-op, or it flushes one cache array, which holds what it held unless the command stores into it. -/
theorem exec_returns_or_flushes (i : Instr) :
    (ReturnsValue i ∧ ∃ op, op.returnsValue = true ∧ op.traffic = trafficOf i ∧
      ∀ s, exec i s = .next (s.awaitBus op)) ∨
    (¬ReturnsValue i ∧ ∀ s, exec i s = .next s.noop ∨
      ∃ a v, trafficOf i = .write a.reg ∧ (v = s.cached a ∨ StoresInto i a) ∧
        exec i s = .next ((s.setCached a v).flush a)) := by
  cases i with
  | isConnected => exact .inl ⟨by simp [ReturnsValue], .probe, rfl, rfl, fun s => exec_awaitBus (s := s) rfl⟩
  | beginCmd => exact .inl ⟨by simp [ReturnsValue], .probe, rfl, rfl, fun s => exec_awaitBus (s := s) rfl⟩
  | getMode => exact .inl ⟨by simp [ReturnsValue], .read .mode, rfl, rfl, fun s => exec_awaitBus (s := s) rfl⟩
  | getInversion => exact .inl ⟨by simp [ReturnsValue], .read .inv, rfl, rfl, fun s => exec_awaitBus (s := s) rfl⟩
  | getGpio => exact .inl ⟨by simp [ReturnsValue], .read .inp, rfl, rfl, fun s => exec_awaitBus (s := s) rfl⟩
  | digitalReadPort => exact .inl ⟨by simp [ReturnsValue], .read .inpPort, rfl, rfl, fun s => exec_awaitBus (s := s) rfl⟩
  | digitalRead p =>
    cases hp : pinIndex p with
    | some j =>
      have hvalid : 0 ≤ p.toInt ∧ p.toInt ≤ 7 := by
        by_contra hno
        rw [pinIndex_none hno] at hp
        exact nomatch hp
      refine .inl ⟨by simpa [ReturnsValue] using hvalid, .read (.inpPin j), rfl, rfl, fun s => ?_⟩
      simp [exec, execDigitalRead, hp, State.issue_eq]
    | none =>
      refine .inr ⟨fun hv => ?_, fun s => .inl (by simp [exec, execDigitalRead, hp])⟩
      have hvalid : 0 ≤ p.toInt ∧ p.toInt ≤ 7 := by simpa [ReturnsValue] using hv
      rw [pinIndex_some (i := ⟨p.toInt.toNat, by omega⟩) (by simp [hvalid.1])] at hp
      exact nomatch hp
  | setMode => exact .inr ⟨by simp [ReturnsValue], fun s => .inr ⟨.mode, s.mode, rfl, .inl rfl, rfl⟩⟩
  | setInversion => exact .inr ⟨by simp [ReturnsValue], fun s => .inr ⟨.inv, s.inv, rfl, .inl rfl, rfl⟩⟩
  | setGpio => exact .inr ⟨by simp [ReturnsValue], fun s => .inr ⟨.out, s.out, rfl, .inl rfl, rfl⟩⟩
  | pinMode p v => exact .inr ⟨by simp [ReturnsValue], exec_stores (a := .mode) (.inl ⟨p, v, rfl⟩) rfl⟩
  | pinModePort l => exact .inr ⟨by simp [ReturnsValue], exec_stores (a := .mode) (.inr ⟨l, rfl⟩) rfl⟩
  | invertPin p v => exact .inr ⟨by simp [ReturnsValue], exec_stores (a := .inv) (.inl ⟨p, v, rfl⟩) rfl⟩
  | invertPinPort l => exact .inr ⟨by simp [ReturnsValue], exec_stores (a := .inv) (.inr ⟨l, rfl⟩) rfl⟩
  | digitalWrite p v => exact .inr ⟨by simp [ReturnsValue], exec_stores (a := .out) (.inl ⟨p, v, rfl⟩) rfl⟩
  | digitalWritePort l => exact .inr ⟨by simp [ReturnsValue], exec_stores (a := .out) (.inr ⟨l, rfl⟩) rfl⟩

/-! ### How a command ends -/

/-- The three ends of a command that began in `s`: a response with RSP.VALID = `valid`, a fault, or a wait in BUS (R26). -/
inductive CommandEnds (s : State) (valid : Bool) (t : State) : Prop
  | responded (u : State) (data : Byte) (ht : t = u.respond valid data) (hk : u.k = s.k) (hc : u.faultCode = s.faultCode)
  | faulted (u : State) (c : FaultCause) (ht : t = u.raiseFault c)
  | waiting (tr : Transport) (op : BusOp) (u : State) (ht : t = { u with transport := tr, fsm := .bus op })
      (hrsp : u.rsp = s.rsp) (hk : u.k = s.k) (hc : u.faultCode = s.faultCode) (hh : u.hist = s.hist)

theorem State.awaitBus_ends (s : State) (op : BusOp) : CommandEnds s op.returnsValue (s.awaitBus op) := by
  rcases s.awaitBus_cases op with ⟨tr, h⟩ | ⟨d, tr, _, h⟩ | ⟨d, tr, c, h⟩
  · exact .waiting tr op s h rfl rfl rfl rfl
  · exact .responded _ _ h (by simp [State.answered]) (by simp [State.answered])
  · exact .faulted _ c h

theorem State.flush_ends (s : State) (a : CacheArray) : CommandEnds s false (s.flush a) := by
  rcases s.flush_cases a with ⟨c, h⟩ | ⟨b, _, h⟩
  · exact .faulted s c h
  · exact h ▸ s.awaitBus_ends (.write a b)

/-- Storing into a cache array first makes no difference to how a command ends. -/
theorem CommandEnds.of_setCached {s t : State} {valid : Bool} {a : CacheArray} {v : PinArray}
    (h : CommandEnds (s.setCached a v) valid t) : CommandEnds s valid t := by
  cases h with
  | responded u data ht hk hc => exact .responded u data ht (by simpa using hk) (by simpa using hc)
  | faulted u c ht => exact .faulted u c ht
  | waiting tr op u ht hrsp hk hc hh =>
    exact .waiting tr op u ht (by simpa using hrsp) (by simpa using hk) (by simpa using hc) (by simpa using hh)

theorem exec_ends {i : Instr} {s t : State} (h : exec i s = .next t) :
    ∃ valid, (valid = true ↔ ReturnsValue i) ∧ CommandEnds s valid t := by
  rcases exec_returns_or_flushes i with ⟨hv, op, hop, _, he⟩ | ⟨hv, he⟩
  · rw [he s] at h
    cases h
    exact ⟨true, by simp [hv], hop ▸ s.awaitBus_ends op⟩
  · refine ⟨false, by simp [hv], ?_⟩
    rcases he s with he | ⟨a, v, _, _, he⟩ <;> rw [he] at h <;> cases h
    · exact .responded s 0x00 rfl rfl rfl
    · exact (State.flush_ends _ a).of_setCached

/-- Settles O31: `exec_ends`, with what each end leaves in FSM, RSP, FAULT_CODE, the command index and the history. -/
theorem commandsEndInIdleFaultOrBus : Obligations.CommandsEndInIdleFaultOrBus := by
  intro i s
  obtain ⟨t, h⟩ := exec_next i s
  refine ⟨t, h, ?_⟩
  obtain ⟨valid, _, hend⟩ := exec_ends h
  cases hend with
  | responded u data ht hk hc =>
    subst ht
    exact .inl ⟨rfl, u.respond_rspUnfaulted valid data, congrArg (· + 1) hk, hc⟩
  | faulted u c ht =>
    subst ht
    exact .inr (.inl ⟨rfl, u.raiseFault_rspFaulted c⟩)
  | waiting tr op u ht hrsp hk hc hh =>
    subst ht
    exact .inr (.inr ⟨⟨op, rfl⟩, hrsp, hk, hc, hh⟩)

/-- Settles O32: the response of `exec_ends` has VALID for the commands that return a value, and a fault's shows its code. -/
theorem validAndFaultFlags : Obligations.ValidAndFaultFlags := by
  intro i s t h
  obtain ⟨valid, hvalid, hend⟩ := exec_ends h
  cases hend with
  | responded u data ht =>
    subst ht
    refine ⟨fun _ => ⟨by simp, ?_⟩, nofun⟩
    rw [State.respond_rsp, rspValid_rspOf]
    exact hvalid
  | faulted u c ht =>
    subst ht
    exact ⟨nofun, fun _ => by simp⟩
  | waiting tr op u ht =>
    subst ht
    exact ⟨nofun, nofun⟩

/-! ### Responses -/

/-- A command that ends in a response after asking the transport returns what the transport answered, and nothing else. -/
theorem State.awaitBus_rsp {s : State} {op : BusOp} (h : (s.awaitBus op).fsm = .idle) :
    ∃ d tr, s.transport.ask op.txn = (some d, tr) ∧ (s.awaitBus op).rsp = rspOf op.returnsValue (op.returned d) := by
  rcases s.awaitBus_cases op with ⟨tr, he⟩ | ⟨d, tr, ha, he⟩ | ⟨d, tr, c, he⟩
  · rw [he] at h
    exact nomatch h
  · exact ⟨d, tr, ha, by rw [he]; rfl⟩
  · rw [he] at h
    exact nomatch h

/-- A command that returns no value ends in the response 0x0000. -/
theorem exec_rsp_of_no_value {i : Instr} {s t : State} (hv : ¬ReturnsValue i) (h : exec i s = .next t)
    (hf : t.fsm = .idle) : t.rsp = 0x0000 := by
  obtain ⟨valid, hvalid, hend⟩ := exec_ends h
  obtain rfl : valid = false := Bool.eq_false_iff.2 (mt hvalid.1 hv)
  cases hend with
  | responded u data ht => rw [ht]; rfl
  | faulted u c ht => rw [ht] at hf; exact nomatch hf
  | waiting tr op u ht => rw [ht] at hf; exact nomatch hf

/-- Settles O35: a value comes from the answer of the transport alone, which both states ask for the same transaction. -/
theorem responsesDoNotShowTheCache : Obligations.ResponsesDoNotShowTheCache := by
  rintro i s t s' mode inv out inp t' rfl h h' hf hf'
  rcases exec_returns_or_flushes i with ⟨_, op, _, _, he⟩ | ⟨hv, _⟩
  · rw [he] at h h'
    cases h
    cases h'
    obtain ⟨d, tr, ha, hrsp⟩ := State.awaitBus_rsp hf
    obtain ⟨d', tr', ha', hrsp'⟩ := State.awaitBus_rsp hf'
    obtain ⟨rfl, rfl⟩ : d = d' ∧ tr = tr' := by simpa using ha.symm.trans ha'
    rw [hrsp, hrsp']
  · rw [exec_rsp_of_no_value hv h hf, exec_rsp_of_no_value hv h' hf']

/-! ### The bus history -/

theorem State.awaitBus_atMostOne (s : State) (op : BusOp) : AtMostOne s (s.awaitBus op) fun x => x = op.traffic := by
  rcases s.awaitBus_cases op with ⟨tr, h⟩ | ⟨d, tr, _, h⟩ | ⟨d, tr, c, h⟩
  · exact .inl (by rw [h])
  · exact .inr ⟨op.event s.cfg.addr d, by simp [h, State.answered], by simp, by simp⟩
  · exact .inr ⟨op.event s.cfg.addr d, by simp [h, State.answered], by simp, by simp⟩

theorem State.flush_atMostOne (s : State) (a : CacheArray) : AtMostOne s (s.flush a) fun x => x = .write a.reg := by
  rcases s.flush_cases a with ⟨c, h⟩ | ⟨b, _, h⟩
  · exact .inl (by simp [h])
  · rw [h]
    exact s.awaitBus_atMostOne (.write a b)

/-- Only the history and the configuration a command begins with count. -/
theorem AtMostOne.of_eq {s u t : State} {x y : Traffic → Prop} (h : AtMostOne u t x) (hh : u.hist = s.hist)
    (hc : u.cfg = s.cfg) (hxy : ∀ z, x z → y z) : AtMostOne s t y := by
  rcases h with h | ⟨e, he, ha, hx⟩
  · exact .inl (h.trans hh)
  · exact .inr ⟨e, hh ▸ he, hc ▸ ha, hxy _ hx⟩

theorem exec_atMostOne {i : Instr} {s t : State} (h : exec i s = .next t) :
    AtMostOne s t fun x => x = trafficOf i := by
  rcases exec_cases i s with he | ⟨op, hop, _, he⟩ | ⟨a, v, ha, he⟩ <;> rw [he] at h <;> cases h
  · exact .inl rfl
  · rw [State.issue_eq, ← hop]
    exact s.awaitBus_atMostOne op
  · rw [ha]
    exact (State.flush_atMostOne _ a).of_eq (by simp) (by simp) fun _ => id

/-! ### The arrays -/

/-- Asking the transport refreshes MODE for GETMODE's read, INV for GETINVERSION's and INP for a read of INPUT_PORT. -/
theorem State.awaitBus_arrays (s : State) (op : BusOp) :
    ((s.awaitBus op).mode = s.mode ∨ op.traffic = .read .configuration) ∧
    ((s.awaitBus op).inv = s.inv ∨ op.traffic = .read .inversion) ∧
    (s.awaitBus op).out = s.out ∧
    ((s.awaitBus op).inp = s.inp ∨ op.traffic = .read .inputPort) := by
  rcases s.awaitBus_cases op with ⟨tr, h⟩ | ⟨d, tr, _, h⟩ | ⟨d, tr, c, h⟩ <;> rw [h]
  · exact ⟨.inl rfl, .inl rfl, rfl, .inl rfl⟩
  · rcases op with _ | (_ | _ | _ | _ | _) | _
    case read.mode => exact ⟨.inr rfl, .inl rfl, rfl, .inl rfl⟩
    case read.inv => exact ⟨.inl rfl, .inr rfl, rfl, .inl rfl⟩
    case read.inp | read.inpPin | read.inpPort => exact ⟨.inl rfl, .inl rfl, rfl, .inr rfl⟩
    case probe | write => exact ⟨.inl rfl, .inl rfl, rfl, .inl rfl⟩
  · exact ⟨.inl rfl, .inl rfl, rfl, .inl rfl⟩

/-- A flush changes no array. -/
theorem State.flush_arrays (s : State) (a : CacheArray) :
    (s.flush a).mode = s.mode ∧ (s.flush a).inv = s.inv ∧ (s.flush a).out = s.out ∧ (s.flush a).inp = s.inp := by
  rcases s.flush_cases a with ⟨c, h⟩ | ⟨b, _, h⟩ <;> rw [h]
  · exact ⟨rfl, rfl, rfl, rfl⟩
  · simpa [BusOp.traffic] using s.awaitBus_arrays (.write a b)

/-- A cache array after a command that flushes: as before, unless the command stores into it. -/
theorem cached_flush_setCached {i : Instr} {s : State} {a : CacheArray} {v : PinArray}
    (hv : v = s.cached a ∨ StoresInto i a) (b : CacheArray) :
    ((s.setCached a v).flush a).cached b = s.cached b ∨ StoresInto i b := by
  obtain ⟨hm, hi, ho, _⟩ := (s.setCached a v).flush_arrays a
  rw [State.cached_congr hm hi ho]
  by_cases hb : b = a
  · subst hb
    rwa [State.cached_setCached_self]
  · exact .inl (State.cached_setCached_ne s v hb)

theorem eq_getMode_of_traffic {i : Instr} (h : trafficOf i = .read .configuration) : i = .getMode := by
  cases i <;> simp [trafficOf] at h ⊢

theorem eq_getInversion_of_traffic {i : Instr} (h : trafficOf i = .read .inversion) : i = .getInversion := by
  cases i <;> simp [trafficOf] at h ⊢

theorem inputRead_of_traffic {i : Instr} (h : trafficOf i = .read .inputPort) :
    i = .getGpio ∨ (∃ p, i = .digitalRead p) ∨ i = .digitalReadPort := by
  cases i <;> simp [trafficOf] at h ⊢

/-- Settles O30: a read refreshes the array of its register, and a set command changes the array it stores into alone. -/
theorem commandsWriteOnlyTheirArrays : Obligations.CommandsWriteOnlyTheirArrays := by
  intro i s t h
  refine ⟨exec_frame h, ?_⟩
  rcases exec_returns_or_flushes i with ⟨_, op, _, hop, he⟩ | ⟨_, he⟩
  · rw [he] at h
    cases h
    obtain ⟨hm, hi, ho, hp⟩ := s.awaitBus_arrays op
    rw [hop] at hm hi hp
    exact ⟨hm.imp_right fun hr => .inl (eq_getMode_of_traffic hr),
      hi.imp_right fun hr => .inl (eq_getInversion_of_traffic hr), .inl ho, hp.imp_right inputRead_of_traffic⟩
  · rcases he s with he | ⟨a, v, _, hv, he⟩ <;> rw [he] at h <;> cases h
    · exact ⟨.inl rfl, .inl rfl, .inl rfl, .inl rfl⟩
    · obtain ⟨_, _, _, hp⟩ := (s.setCached a v).flush_arrays a
      exact ⟨(cached_flush_setCached hv .mode).imp_right .inr, (cached_flush_setCached hv .inv).imp_right .inr,
        cached_flush_setCached hv .out, .inl (by simpa using hp)⟩

/-! ### A step in BUS -/

theorem step_of_bus {s : State} {op : BusOp} (hc : configRefusal s.cfg = none) (hr : s.resetReq = none)
    (hf : s.fsm = .bus op) : step s = .next (s.awaitBus op) := by
  rw [step_of_running hc hr, fetchByFsm_bus hf, Fetched.outcome_done]

/-- Settles O58: a step in BUS asks the transport, and what an answered transaction does is said by `finish_completed` and
`finish_failed`. -/
theorem busAnswerEndsTheCommand : Obligations.BusAnswerEndsTheCommand := by
  intro s op d tr hc hr hf ha
  have hstep : step s = .next ({ s with transport := tr }.finish op d) := by
    rw [step_of_bus hc hr hf, State.awaitBus_some ha]
  refine ⟨?_, ?_, ?_⟩
  · rintro rfl
    rw [hstep, State.finish_completed tr rfl]
    simp [State.answered, BusOp.event, BusOp.refreshed, BusOp.returned, BusOp.returnsValue, State.respond, boolData]
  · rintro use rfl
    refine ⟨fun hok => ?_, fun hok => ⟨s.k, ?_⟩⟩
    · rw [hstep, State.finish_completed tr (by simp [BusOp.failure, hok])]
      cases use <;> simp [State.answered, BusOp.event, hok] <;> rfl
    · rw [hstep, State.finish_failed tr (by simp only [BusOp.failure, hok]; rfl)]
      simp only [State.answered, BusOp.event, hok]
      rfl
  · rintro a b rfl
    refine ⟨fun hok => ?_, fun hok => ⟨s.k, ?_⟩⟩
    · rw [hstep, State.finish_completed tr (by simp [BusOp.failure, hok])]
      simp only [State.answered, BusOp.event, hok]
      rfl
    · rw [hstep, State.finish_failed tr (by simp only [BusOp.failure, hok]; rfl)]
      simp only [State.answered, BusOp.event, hok]
      rfl

end Sys2Proof.Machine
end

-- Proofs: taking words
section
/-!
PROOFS. Words from the command stream (spec/10_state.md R26, R29; spec/30_encoding.md R80, R85, R87): how a per-port command
is received, and what one step can do.
-/

namespace Sys2Proof.Machine

/-! ### Rest -/

/-- Settles O56: with no word offered, IDLE is left as it is. -/
theorem normalEndIsStable : Obligations.NormalEndIsStable := by
  rintro s hc ⟨hf, hw, hr⟩
  rw [step_of_running hc hr, fetchByFsm_idle_none hf hw, Fetched.outcome_done]

/-! ### A per-port command from IDLE -/

theorem step_of_idle {s : State} {h : Word} {ws : List Word} (hc : configRefusal s.cfg = none) (hr : s.resetReq = none)
    (hf : s.fsm = .idle) (hw : s.cmdIn = h :: ws) : step s = (takeHeader h ws s).outcome := by
  rw [step_of_running hc hr, fetchByFsm_idle hf hw]

/-- The state in which the header `h` and the payload words `good` are taken and `rest` is still offered (R29). -/
def State.receiving (s : State) (h : Word) (good rest : List Word) : State :=
  { s with
    cmdIn := rest
    hdr := h
    listBuf := storeAll s.listBuf 0 (good.map payloadElement)
    listCnt := BitVec.ofNat 8 good.length
    fsm := .recv }

theorem State.receiving_listCnt {h : Word} {good : List Word} (hl : good.length ≤ (lenField h).toNat) (s : State)
    (rest : List Word) : (s.receiving h good rest).listCnt.toNat = good.length := by
  have := (lenField h).isLt
  simp only [State.receiving, BitVec.toNat_ofNat]
  omega

/-- From IDLE, a per-port header and legal payload words that it announces are taken. -/
theorem step_of_listHeader {s : State} {h : Word} {op : Opcode} {good rest : List Word}
    (hc : configRefusal s.cfg = none) (hr : s.resetReq = none) (hf : s.fsm = .idle) (hw : s.cmdIn = h :: (good ++ rest))
    (ho : decodeHeader h = .ok op) (hl : op.format = .l) (hz : 0 < (lenField h).toNat)
    (hlen : good.length ≤ (lenField h).toNat) (hg : ∀ w ∈ good, payloadLegal w = true) :
    step s = (receive rest (s.receiving h good rest)).outcome := by
  have hne : lenField h ≠ 0 := by
    intro h0
    simp [h0] at hz
  rw [step_of_idle hc hr hf hw, takeHeader_list ho hl hne, receive_good rfl hg (by simpa using hlen)]
  simp [State.takeWords, State.receiving]

/-- Settles O40: the words are taken one after the other, and the controller waits while LISTCNT is below LEN. -/
theorem incompletePayloadWaitsInRecv : Obligations.IncompletePayloadWaitsInRecv := by
  intro s h op ws hc hr hf hw ho hl hlen hg
  have hz := Nat.zero_lt_of_lt hlen
  have hwait : (s.receiving h ws []).listCnt.toNat < (lenField h).toNat := by
    rwa [State.receiving_listCnt (Nat.le_of_lt hlen)]
  rw [step_of_listHeader (rest := []) hc hr hf (by simpa using hw) ho hl hz (Nat.le_of_lt hlen) hg, receive_wait hwait]
  rfl

/-- Settles O39: the legal words are taken one after the other, and the illegal one faults while LISTCNT is below LEN. -/
theorem illegalPayloadWordFaults : Obligations.IllegalPayloadWordFaults := by
  intro s h op good rest bad hc hr hf hw ho hl hlen hg hbad
  have hz := Nat.zero_lt_of_lt hlen
  have hwait : (s.receiving h good (bad :: rest)).listCnt.toNat < (lenField h).toNat := by
    rwa [State.receiving_listCnt (Nat.le_of_lt hlen)]
  rw [step_of_listHeader hc hr hf hw ho hl hz (Nat.le_of_lt hlen) hg, receive_bad hwait hbad]
  rfl

/-! ### A complete command from IDLE -/

/-- The accepted state of a command that an opcode and the list that came with it make (R29). -/
theorem State.accepted_command (s : State) (op : Opcode) (pin val : Byte) (list : List Byte) (h : Word)
    (rest : List Word) :
    s.accepted (op.command pin val list) h rest =
      { s with
        cmdIn := rest
        hdr := h
        listBuf := if op.format = .l then storeAll s.listBuf 0 list else s.listBuf
        listCnt := if op.format = .l then BitVec.ofNat 8 list.length else s.listCnt
        fsm := .exec } := by
  simp only [State.accepted, Opcode.listOperand_command, Opcode.opcode_command]
  by_cases hl : op.format = .l <;> simp [hl, storeAll]

/-- The elements of a received payload are what the command is built from (R85). -/
theorem State.received_receiving (s : State) (h : Word) (list : List Byte) (rest : List Word)
    (hlen : list.length = payloadLen h) : (s.receiving h (list.map payloadWord) rest).received = list := by
  have hfit : list.length ≤ 255 := by
    have := payloadLen_le h
    have := (lenField h).isLt
    omega
  have hmap : (list.map payloadWord).map payloadElement = list := by simp [Function.comp_def]
  simp only [State.received, State.receiving, hmap, ← hlen]
  exact take_storeAll s.listBuf list hfit

theorem launch_outcome {s : State} {h : Word} {op : Opcode} {list : List Byte} (hh : s.hdr = h)
    (ho : decodeHeader h = .ok op) (hlist : s.received = list) :
    (launch s).outcome = exec (op.command (pinField h) (valField h) list) { s with fsm := .exec } := by
  subst hh hlist
  rw [launch_ok ho, Fetched.outcome_run]

/-- Settles O37: in format L the payload is received first; else the header alone is the command. -/
theorem stepRunsTheDecodedCommand : Obligations.StepRunsTheDecodedCommand := by
  intro s h ws rest i hc hr hf hw hdec
  obtain ⟨hd, op, list, ho, hws, hlen, rfl⟩ := decode_ok hdec
  obtain ⟨rfl, rfl⟩ : h = hd ∧ ws = list.map payloadWord ++ rest := by simpa using hws
  have hpl := payloadLen_of_ok ho
  have hnil : payloadLen h = 0 → list = [] := fun h0 => List.eq_nil_of_length_eq_zero (hlen.trans h0)
  rw [State.accepted_command]
  by_cases hl : op.format = .l
  · rw [if_pos hl] at hpl
    by_cases hz : lenField h = 0
    · have hp0 : payloadLen h = 0 := by simp [hpl, hz]
      obtain rfl := hnil hp0
      rw [step_of_idle hc hr hf hw, takeHeader_empty ho hl hz]
      refine Eq.trans (launch_outcome (list := []) rfl ho (by simp [State.received, hp0])) ?_
      simp [hl, storeAll]
    · have hgood : (list.map payloadWord).length = (lenField h).toNat := by simp [hlen, hpl]
      have hfull := (State.receiving_listCnt (Nat.le_of_eq hgood) s rest).trans hgood
      have hpos : 0 < (lenField h).toNat := Nat.pos_of_ne_zero (by simpa [BitVec.toNat_eq] using hz)
      rw [step_of_listHeader hc hr hf hw ho hl hpos (Nat.le_of_eq hgood) (by simp),
        receive_complete (s := s.receiving h _ rest) (Nat.le_of_eq hfull.symm)]
      refine Eq.trans (launch_outcome rfl ho (s.received_receiving h list rest hlen)) ?_
      simp [State.receiving, hl, Function.comp_def]
  · rw [if_neg hl] at hpl
    obtain rfl := hnil hpl
    rw [step_of_idle hc hr hf hw, takeHeader_single ho hl]
    refine Eq.trans (launch_outcome (list := []) rfl ho (by simp [State.received, hpl])) ?_
    simp [hl]

/-! ### Payload in pieces -/

theorem launch_outcome_ne_recv {s t : State} (h : (launch s).outcome = .next t) : t.fsm ≠ .recv := by
  rcases launch_outcome_fsm h with hf | hf | ⟨_, hf⟩ <;> rw [hf] <;> exact nofun

/-- Receiving ends in RECV only when every word offered was a payload word and more are to come. -/
theorem receive_ends_in_recv {ws : List Word} {s t : State} (h : (receive ws s).outcome = .next t) (hs : s.cmdIn = ws)
    (hf : t.fsm = .recv) :
    t = s.takeWords ws [] ∧ (∀ w ∈ ws, payloadLegal w = true) ∧
      s.listCnt.toNat + ws.length < (lenField s.hdr).toNat := by
  obtain ⟨good, rest, rfl, hg, _, hcases⟩ := receive_cases ws s hs
  rcases hcases with ⟨rfl, hlt, he⟩ | ⟨_, _, _, _, _, he⟩ | ⟨_, he⟩ <;> rw [he] at h
  · rw [List.append_nil]
    cases h
    exact ⟨rfl, hg, hlt⟩
  · cases h
    exact nomatch hf
  · exact absurd hf (launch_outcome_ne_recv h)

/-- Words that come while the controller waits in RECV are taken as if they had come with the earlier ones. -/
theorem receive_append {ws : List Word} {s t : State} (h : (receive ws s).outcome = .next t) (hs : s.cmdIn = ws)
    (hf : t.fsm = .recv) (more : List Word) :
    receive more { t with cmdIn := more } = receive (ws ++ more) { s with cmdIn := ws ++ more } := by
  obtain ⟨rfl, hg, hlt⟩ := receive_ends_in_recv h hs hf
  rw [receive_good (s := { s with cmdIn := ws ++ more }) rfl hg (Nat.le_of_lt hlt)]
  rfl

/-- Taking a header ends in RECV only when it is a per-port header with LEN > 0. -/
theorem takeHeader_ends_in_recv {h : Word} {rest : List Word} {s t : State}
    (ht : (takeHeader h rest s).outcome = .next t) (hf : t.fsm = .recv) :
    ∃ op, decodeHeader h = .ok op ∧ op.format = .l ∧ lenField h ≠ 0 := by
  cases ho : decodeHeader h with
  | error e =>
    rw [takeHeader_error ho] at ht
    cases ht
    exact nomatch hf
  | ok op =>
    refine ⟨op, rfl, ?_, ?_⟩
    · by_contra hl
      rw [takeHeader_single ho hl] at ht
      exact launch_outcome_ne_recv ht hf
    · intro hz
      by_cases hl : op.format = .l
      · rw [takeHeader_empty ho hl hz] at ht
        exact launch_outcome_ne_recv ht hf
      · rw [takeHeader_single ho hl] at ht
        exact launch_outcome_ne_recv ht hf

/-- A step of the controller by itself that ends in RECV makes no difference to which words are taken later. -/
theorem fetchByFsm_append {s t : State} (h : (fetchByFsm s).outcome = .next t) (hf : t.fsm = .recv) (more : List Word) :
    fetchByFsm { t with cmdIn := more } = fetchByFsm { s with cmdIn := s.cmdIn ++ more } := by
  rw [fetchByFsm_recv (s := { t with cmdIn := more }) hf]
  generalize hu : { s with cmdIn := s.cmdIn ++ more } = u
  cases hs : s.fsm with
  | idle =>
    cases hw : s.cmdIn with
    | nil =>
      rw [fetchByFsm_idle_none hs hw] at h
      cases h
      rw [hs] at hf
      exact nomatch hf
    | cons w ws =>
      rw [fetchByFsm_idle hs hw] at h
      obtain ⟨op, ho, hl, hz⟩ := takeHeader_ends_in_recv h hf
      rw [takeHeader_list ho hl hz] at h
      rw [fetchByFsm_idle (h := w) (rest := ws ++ more) (by rw [← hu, hs]) (by rw [← hu, hw]; rfl),
        takeHeader_list ho hl hz, ← hu]
      exact receive_append h rfl hf more
  | recv =>
    rw [fetchByFsm_recv hs] at h
    rw [fetchByFsm_recv (by rw [← hu, hs]), ← hu]
    exact receive_append h rfl hf more
  | exec =>
    rw [fetchByFsm_exec hs] at h
    exact absurd hf (launch_outcome_ne_recv h)
  | bus op =>
    rw [fetchByFsm_bus hs] at h
    cases h
    rcases s.awaitBus_fsm op with h' | h' | h' <;> rw [hf] at h' <;> exact nomatch h'
  | fault =>
    rw [fetchByFsm_fault hs] at h
    cases h
    rw [hs] at hf
    exact nomatch hf

/-! ### What one step does -/

/-- `t` differs from `s` only in what taking words changes: the stream, HDR, LISTBUF, LISTCNT and FSM (R26, R29). -/
def TookWords (s t : State) : Prop :=
  t = { s with cmdIn := t.cmdIn, hdr := t.hdr, listBuf := t.listBuf, listCnt := t.listCnt, fsm := t.fsm }

theorem TookWords.trans {s t u : State} (h : TookWords s t) (h' : TookWords t u) : TookWords s u :=
  Eq.trans h' (by rw [h])

/-- A header that announces a payload (R85). -/
def IsListHeader (h : Word) : Prop := ∃ op, decodeHeader h = .ok op ∧ op.format = .l

/-- What taking words leads to: a wait for payload, a fault, or a command that runs (R26, R87). -/
inductive WordsLeadTo (s t : State) : Prop
  | waiting (ht : TookWords s t) (hf : t.fsm = .recv) (hl : t.listCnt.toNat < (lenField t.hdr).toNat)
      (hh : IsListHeader t.hdr ∨ s.fsm = .recv ∧ t.hdr = s.hdr)
  | illegal (u : State) (hu : TookWords s u) (ht : t = u.raiseFault .illegalCommand)
  | command (i : Instr) (u : State) (hu : TookWords s u) (he : exec i u = .next t)

theorem WordsLeadTo.of_launch {s u t : State} (h : (launch u).outcome = .next t) (hu : TookWords s u) :
    WordsLeadTo s t := by
  rcases launch_cases u with ⟨op, _, he⟩ | ⟨_, _, he⟩ <;> rw [he] at h
  · exact .command _ { u with fsm := .exec } (hu.trans rfl) h
  · exact nomatch h

theorem WordsLeadTo.of_receive {ws : List Word} {s t : State} (h : (receive ws s).outcome = .next t) (hs : s.cmdIn = ws)
    (hf : s.fsm = .recv) : WordsLeadTo s t := by
  obtain ⟨good, rest, _, _, hle, hcases⟩ := receive_cases ws s hs
  rcases hcases with ⟨_, hlt, he⟩ | ⟨_, tl, _, _, _, he⟩ | ⟨_, he⟩ <;> rw [he] at h
  · cases h
    refine .waiting rfl hf ?_ (.inr ⟨hf, rfl⟩)
    have := (lenField s.hdr).isLt
    simp only [State.takeWords, BitVec.toNat_add, BitVec.toNat_ofNat]
    omega
  · cases h
    exact .illegal (s.takeWords good tl) rfl rfl
  · exact .of_launch h rfl

theorem WordsLeadTo.of_takeHeader {h : Word} {rest : List Word} {s t : State}
    (ht : (takeHeader h rest s).outcome = .next t) : WordsLeadTo s t := by
  cases ho : decodeHeader h with
  | error e =>
    rw [takeHeader_error ho] at ht
    cases ht
    exact .illegal { s with cmdIn := rest } rfl rfl
  | ok op =>
    by_cases hl : op.format = .l
    · by_cases hz : lenField h = 0
      · rw [takeHeader_empty ho hl hz] at ht
        exact .of_launch ht rfl
      · rw [takeHeader_list ho hl hz] at ht
        have htook : TookWords s { s with cmdIn := rest, hdr := h, listCnt := 0, fsm := .recv } := rfl
        cases WordsLeadTo.of_receive ht rfl rfl with
        | waiting ht hf hlt hh =>
          refine .waiting (htook.trans ht) hf hlt (.inl ?_)
          rcases hh with hh | ⟨_, hh⟩
          · exact hh
          · exact hh ▸ ⟨op, ho, hl⟩
        | illegal u hu ht => exact .illegal u (htook.trans hu) ht
        | command i u hu he => exact .command i u (htook.trans hu) he
    · rw [takeHeader_single ho hl] at ht
      exact .of_launch ht rfl

/-- What a step that goes on has done (R26, R190). -/
inductive StepDoes (s t : State) : Prop
  | reset (req : ResetReq) (ha : req.addr.getD defaultAddr ∈ addrList) (ht : t = s.construct req.addr)
  | rests (ht : t = s)
  | takesWords (hf : s.fsm ≠ .fault) (hw : WordsLeadTo s t)
  | asksTransport (op : BusOp) (hf : s.fsm = .bus op) (ht : t = s.awaitBus op)

theorem step_does {s t : State} (h : step s = .next t) : StepDoes s t := by
  rcases step_next_cases h with ⟨_, hrun⟩ | ⟨req, _, hserve⟩
  · cases hf : s.fsm with
    | idle =>
      cases hw : s.cmdIn with
      | nil =>
        rw [fetchByFsm_idle_none hf hw] at hrun
        exact .rests (Host.Outcome.next.inj hrun).symm
      | cons w ws =>
        rw [fetchByFsm_idle hf hw] at hrun
        exact .takesWords (by simp [hf]) (.of_takeHeader hrun)
    | recv =>
      rw [fetchByFsm_recv hf] at hrun
      exact .takesWords (by simp [hf]) (.of_receive hrun rfl hf)
    | exec =>
      rw [fetchByFsm_exec hf] at hrun
      exact .takesWords (by simp [hf]) (.of_launch hrun rfl)
    | bus op =>
      rw [fetchByFsm_bus hf] at hrun
      exact .asksTransport op hf (Host.Outcome.next.inj hrun).symm
    | fault =>
      rw [fetchByFsm_fault hf] at hrun
      exact .rests (Host.Outcome.next.inj hrun).symm
  · obtain ⟨_, ha, ht⟩ := serviceReset_next hserve
    exact .reset req ha ht

/-- A step that ends in RECV has taken words and done nothing else. -/
theorem step_ends_in_recv {s t : State} (h : step s = .next t) (hf : t.fsm = .recv) : TookWords s t := by
  cases step_does h with
  | reset req _ ht => rw [ht] at hf; exact nomatch hf
  | rests ht => subst ht; rfl
  | takesWords _ hw =>
    cases hw with
    | waiting ht => exact ht
    | illegal u _ ht => rw [ht] at hf; exact nomatch hf
    | command i u _ he => rcases exec_fsm he with h' | h' | ⟨_, h'⟩ <;> rw [hf] at h' <;> exact nomatch h'
  | asksTransport op _ ht =>
    rcases s.awaitBus_fsm op with h' | h' | h' <;> rw [← ht, hf] at h' <;> exact nomatch h'

/-- Settles O41: `fetchByFsm_append`, since a step that ends in RECV served no reset and left the configuration as it was. -/
theorem payloadMayArriveInPieces : Obligations.PayloadMayArriveInPieces := by
  intro s t more h hf
  have hc := configRefusal_of_step h
  have htook := step_ends_in_recv h hf
  rcases step_next_cases h with ⟨hr, hrun⟩ | ⟨req, _, hserve⟩
  · have hct : configRefusal t.cfg = none := by rwa [htook]
    have hrt : t.resetReq = none := by rwa [htook]
    rw [step_of_running (s := { t with cmdIn := more }) hct hrt,
      step_of_running (s := { s with cmdIn := s.cmdIn ++ more }) hc hr, fetchByFsm_append hrun hf]
  · obtain ⟨_, _, rfl⟩ := serviceReset_next hserve
    exact nomatch hf

/-! ### The bus history of a step -/

theorem trafficOf_allowed (i : Instr) : trafficOf i ≠ .read .outputPort ∧ trafficOf i ≠ .write .inputPort := by
  cases i <;> exact ⟨nofun, nofun⟩

theorem BusOp.traffic_allowed (op : BusOp) : op.traffic ≠ .read .outputPort ∧ op.traffic ≠ .write .inputPort := by
  rcases op with _ | (_ | _ | _ | _ | _) | ⟨_ | _ | _⟩ <;> exact ⟨nofun, nofun⟩

/-- Settles O29: a step that runs a command or asks the transport makes at most its one transaction, and any other step
makes none. -/
theorem transactionsAreThoseOfTheTable : Obligations.TransactionsAreThoseOfTheTable := by
  refine ⟨fun i s t h => exec_atMostOne h, fun s t h => ?_⟩
  cases step_does h with
  | reset req _ ht => exact .inl (by rw [ht]; rfl)
  | rests ht => exact .inl (by rw [ht])
  | takesWords _ hw =>
    cases hw with
    | waiting ht => exact .inl (by rw [ht])
    | illegal u hu ht => exact .inl (by rw [ht, hu]; rfl)
    | command i u hu he =>
      exact (exec_atMostOne he).of_eq (by rw [hu]) (by rw [hu]) fun x hx => hx ▸ trafficOf_allowed i
  | asksTransport op _ ht =>
    rw [ht]
    exact (s.awaitBus_atMostOne op).of_eq rfl rfl fun x hx => hx ▸ op.traffic_allowed

end Sys2Proof.Machine
end

-- Proofs: the invariant
section
/-!
PROOFS. The invariant (spec/10_state.md R25 to R28; spec/41_register_primitives.md R121; spec/60_exceptions.md R171, R172):
reset meets it, every step keeps it, and so it shapes RSP in every reachable state.
-/

namespace Sys2Proof.Machine

/-! ### The invariant without FSM -/

/-- What the invariant says outside FAULT that does not depend on FSM. -/
structure State.Ready (s : State) : Prop where
  config : configRefusal s.cfg = none
  packs : s.Packs
  noFault : s.faultCode = 0x00
  unfaulted : s.RspUnfaulted

theorem State.Inv.ready {s : State} (h : s.Inv) (hf : s.fsm ≠ .fault) : s.Ready :=
  have ⟨hcode, hrsp⟩ := h.unfaulted hf
  ⟨h.config, h.packs hf, hcode, hrsp⟩

/-- Taking words touches nothing that `Ready` speaks of. -/
theorem State.Ready.tookWords {s u : State} (h : s.Ready) (hu : TookWords s u) : u.Ready := by
  rw [hu]
  exact ⟨h.config, h.packs, h.noFault, h.unfaulted⟩

/-- In IDLE and in BUS the invariant asks for nothing more. -/
theorem State.Ready.inv {s : State} (h : s.Ready) (hf : s.fsm = .idle ∨ ∃ op, s.fsm = .bus op) : s.Inv := by
  obtain ⟨hfault, hrecv, hexec⟩ : s.fsm ≠ .fault ∧ s.fsm ≠ .recv ∧ s.fsm ≠ .exec := by
    rcases hf with hf | ⟨_, hf⟩ <;> simp [hf]
  exact ⟨h.config, fun _ => h.packs, fun _ => ⟨h.noFault, h.unfaulted⟩, fun hf => absurd hf hfault,
    fun hf => absurd hf hrecv, hexec⟩

/-! ### How a command ends -/

theorem State.raiseFault_inv_of_config {s : State} (h : configRefusal s.cfg = none) (c : FaultCause) :
    (s.raiseFault c).Inv :=
  ⟨h, fun hf => absurd rfl hf, fun hf => absurd rfl hf, fun _ => s.raiseFault_rspFaulted c, nofun, nofun⟩

theorem State.respond_inv_of_packs {s : State} (hc : configRefusal s.cfg = none) (hp : s.Packs) (h0 : s.faultCode = 0x00)
    (v : Bool) (d : Byte) : (s.respond v d).Inv :=
  State.Ready.inv ⟨hc, hp, h0, s.respond_rspUnfaulted v d⟩ (.inl rfl)

/-- A refresh leaves packing arrays packing: an unpacked byte packs (R121). -/
theorem BusOp.refreshed_packs {s : State} (h : s.Packs) (op : BusOp) (b : Byte) : (op.refreshed s b).Packs := by
  have refreshed : ∀ a, (s.setCached a (unpack b)).Packs := by
    intro a a'
    by_cases ha : a' = a
    · subst ha
      simpa using pack_unpack_ok _ b
    · simpa [State.cached_setCached_ne s _ ha] using h a'
  rcases op with _ | (_ | _ | _ | _ | _) | _
  case read.mode => exact refreshed .mode
  case read.inv => exact refreshed .inv
  case probe | read.inp | read.inpPin | read.inpPort | write => exact h

theorem State.Ready.answered {s : State} (h : s.Ready) (op : BusOp) (d : BusDraw) (tr : Transport) :
    (s.answered op d tr).Ready := ⟨h.config, h.packs, h.noFault, h.unfaulted⟩

theorem State.Ready.awaitBus_inv {s : State} (h : s.Ready) (op : BusOp) : (s.awaitBus op).Inv := by
  rcases s.awaitBus_cases op with ⟨tr, he⟩ | ⟨d, tr, _, he⟩ | ⟨d, tr, c, he⟩ <;> rw [he]
  · exact State.Ready.inv ⟨h.config, h.packs, h.noFault, h.unfaulted⟩ (.inr ⟨op, rfl⟩)
  · obtain ⟨hc, hp, h0, _⟩ := h.answered op d tr
    exact State.respond_inv_of_packs (by simpa using hc) (BusOp.refreshed_packs hp op d.byte) (by simpa using h0) _ _
  · exact State.raiseFault_inv_of_config (h.answered op d tr).config c

/-- A flush of an array that something was stored into faults, or goes on with an array that packs (R121). -/
theorem State.Ready.flush_inv {s : State} (h : s.Ready) (a : CacheArray) (v : PinArray) :
    ((s.setCached a v).flush a).Inv := by
  have hconfig : configRefusal (s.setCached a v).cfg = none := by simpa using h.config
  rcases (s.setCached a v).flush_cases a with ⟨c, he⟩ | ⟨b, hb, he⟩ <;> rw [he]
  · exact State.raiseFault_inv_of_config hconfig c
  · refine State.Ready.awaitBus_inv ⟨hconfig, fun a' => ?_, ?_, ?_⟩ _
    · by_cases ha : a' = a
      · rw [ha]
        exact ⟨b, hb⟩
      · simpa [State.cached_setCached_ne s v ha] using h.packs a'
    · simpa using h.noFault
    · simpa [State.RspUnfaulted] using h.unfaulted

theorem State.Ready.exec_inv {s t : State} {i : Instr} (h : s.Ready) (he : exec i s = .next t) : t.Inv := by
  rcases exec_cases i s with h' | ⟨op, _, _, h'⟩ | ⟨a, v, _, h'⟩ <;> rw [he] at h' <;> cases h'
  · exact State.respond_inv_of_packs h.config h.packs h.noFault false 0x00
  · exact s.issue_eq op ▸ h.awaitBus_inv op
  · exact h.flush_inv a v

/-! ### Reset and the steps -/

/-- The arrays that reset leaves pack under either policy. -/
theorem packs_of_reset {s : State} (hm : s.mode = State.reset.mode) (hi : s.inv = State.reset.inv)
    (ho : s.out = State.reset.out) : s.Packs := by
  intro a
  rw [State.cached_congr (s := State.reset) hm hi ho]
  have : State.reset.cached a = Vector.replicate 8 0 := by cases a <;> rfl
  rw [this]
  exact pack_zero_ok _

/-- A reset to a listed address leaves an accepted configuration. -/
theorem State.construct_inv_of_listed {s : State} {addr : Option Nat} (hc : configRefusal s.cfg = none)
    (ha : addr.getD defaultAddr ∈ addrList) : (s.construct addr).Inv := by
  obtain ⟨hhosts, _⟩ := (configRefusal_eq_none_iff s.cfg).1 hc
  have hconfig : configRefusal (s.construct addr).cfg = none := (configRefusal_eq_none_iff _).2 ⟨hhosts, ha⟩
  exact State.Ready.inv ⟨hconfig, packs_of_reset rfl rfl rfl, rfl, .inl rfl⟩ (.inl rfl)

theorem WordsLeadTo.inv {s t : State} (hs : s.Inv) (hf : s.fsm ≠ .fault) (h : WordsLeadTo s t) : t.Inv := by
  have hready := hs.ready hf
  cases h with
  | waiting ht hrecv hlt hheader =>
    obtain ⟨hconfig, hpacks, hcode, hrsp⟩ := hready.tookWords ht
    have hlist : IsListHeader t.hdr := by
      rcases hheader with hlist | ⟨hfsm, hsame⟩
      · exact hlist
      · obtain ⟨op, ho, hl, _⟩ := hs.receiving hfsm
        exact hsame ▸ ⟨op, ho, hl⟩
    obtain ⟨op, ho, hl⟩ := hlist
    exact ⟨hconfig, fun _ => hpacks, fun _ => ⟨hcode, hrsp⟩, fun hfault => by simp [hrecv] at hfault,
      fun _ => ⟨op, ho, hl, hlt⟩, by simp [hrecv]⟩
  | illegal u hu ht => exact ht ▸ State.raiseFault_inv_of_config (hready.tookWords hu).config _
  | command i u hu he => exact (hready.tookWords hu).exec_inv he

/-- Settles O51: by what a step does, with the part of the invariant that FSM does not matter for carried along. -/
theorem everyStepKeepsTheInvariant : Obligations.EveryStepKeepsTheInvariant := by
  intro s t hs h
  cases step_does h with
  | reset req ha ht => exact ht ▸ State.construct_inv_of_listed hs.config ha
  | rests ht => exact ht ▸ hs
  | takesWords hf hw => exact hw.inv hs hf
  | asksTransport op hf ht => exact ht ▸ (hs.ready (by simp [hf])).awaitBus_inv op

/-! ### Reachable states -/

theorem Reachable.inv {s : State} (h : Reachable s) : s.Inv := by
  induction h with
  | construct c words req t hc =>
    exact State.Ready.inv ⟨hc, packs_of_reset rfl rfl rfl, rfl, .inl rfl⟩ (.inl rfl)
  | environment s words req t _ ih =>
    exact ⟨ih.config, ih.packs, ih.unfaulted, ih.faulted, ih.receiving, ih.notExec⟩
  | step s t _ hs ih => exact everyStepKeepsTheInvariant s t ih hs

/-- Settles O53: the invariant says which response RSP is, and the shape of each is known. -/
theorem responseShape : Obligations.ResponseShape := by
  intro s h
  have hinv := h.inv
  by_cases hf : s.fsm = .fault
  · obtain ⟨⟨hcode, _⟩, hrsp⟩ := hinv.faulted hf
    have hrsp : s.rsp = rspFault s.faultCode := hrsp
    have hne : s.faultCode ≠ 0x00 := by
      intro h0
      simp [h0] at hcode
    rw [hrsp]
    exact ⟨by simp, rspFault_upper _, by simp, fun _ => ⟨by simp, hne, hf⟩, by simp⟩
  · obtain ⟨_, hunfaulted⟩ := hinv.unfaulted hf
    obtain ⟨v, d, hrsp⟩ := s.rspUnfaulted_iff.1 hunfaulted
    rw [hrsp, rspValid_rspOf, rspFaulted_rspOf]
    refine ⟨by simp, rspOf_upper v d, ?_, nofun, fun hfault => absurd hfault hf⟩
    rintro rfl _
    rfl

/-- Settles O49: each value is the one State.reset is given. -/
theorem resetState : Obligations.ResetState :=
  ⟨by decide, rfl, rfl, rfl, rfl, rfl⟩

end Sys2Proof.Machine
end

-- Proofs: the hidden registers
section
/-!
PROOFS. HDR, LISTBUF and LISTCNT carry no meaning from one command to the next (spec/10_state.md R29): every operation
commutes with a change of these three registers, and taking words uses no more of them than it has put there.
-/

namespace Sys2Proof.Machine

/-! ### A change of the hidden registers commutes with every operation -/

/-- The same state with other contents of HDR, LISTBUF and LISTCNT. -/
def State.withHidden (s : State) (h : Word) (buf : Vector Byte 255) (n : Byte) : State :=
  { s with hdr := h, listBuf := buf, listCnt := n }

section

variable (s : State) (h : Word) (buf : Vector Byte 255) (n : Byte)

theorem State.cached_withHidden (a : CacheArray) : (s.withHidden h buf n).cached a = s.cached a := by cases a <;> rfl

theorem State.setCached_withHidden (a : CacheArray) (v : PinArray) :
    (s.withHidden h buf n).setCached a v = (s.setCached a v).withHidden h buf n := by cases a <;> rfl

theorem BusOp.refreshed_withHidden (op : BusOp) (b : Byte) :
    op.refreshed (s.withHidden h buf n) b = (op.refreshed s b).withHidden h buf n := by
  rcases op with _ | (_ | _ | _ | _ | _) | _ <;> rfl

theorem State.awaitBus_withHidden (op : BusOp) :
    (s.withHidden h buf n).awaitBus op = (s.awaitBus op).withHidden h buf n := by
  rcases ha : s.transport.ask op.txn with ⟨_ | d, tr⟩
  · rw [State.awaitBus_none ha, State.awaitBus_none (s := s.withHidden h buf n) ha]
    rfl
  · rw [State.awaitBus_some ha, State.awaitBus_some (s := s.withHidden h buf n) ha]
    cases hf : op.failure d with
    | none =>
      rw [State.finish_completed tr hf, State.finish_completed tr hf]
      exact congrArg (·.respond op.returnsValue (op.returned d))
        (BusOp.refreshed_withHidden (s.answered op d tr) h buf n op d.byte)
    | some c =>
      rw [State.finish_failed tr hf, State.finish_failed tr hf]
      rfl

theorem State.issue_withHidden (op : BusOp) : (s.withHidden h buf n).issue op = (s.issue op).withHidden h buf n := by
  rw [State.issue_eq, State.issue_eq, State.awaitBus_withHidden]

theorem State.flush_withHidden (a : CacheArray) : (s.withHidden h buf n).flush a = (s.flush a).withHidden h buf n := by
  have hcached := s.cached_withHidden h buf n a
  rcases pack_error_or_ok s.cfg.nonbinaryPack (s.cached a) with ⟨c, hp⟩ | ⟨b, hp⟩
  · rw [State.flush_error hp, State.flush_error (s := s.withHidden h buf n) (hcached ▸ hp)]
    rfl
  · rw [State.flush_ok hp, State.flush_ok (s := s.withHidden h buf n) (hcached ▸ hp), State.issue_withHidden]

theorem State.setPin_withHidden (a : CacheArray) (pin val : Byte) (ok : Bool) :
    (s.withHidden h buf n).setPin a pin val ok = (s.setPin a pin val ok).withHidden h buf n := by
  cases hp : pinIndex pin with
  | none =>
    rw [State.setPin_invalidPin hp, State.setPin_invalidPin hp]
    rfl
  | some i =>
    cases ok with
    | false =>
      rw [State.setPin_invalidValue, State.setPin_invalidValue]
      rfl
    | true =>
      rw [State.setPin_valid hp, State.setPin_valid hp, State.cached_withHidden, State.setCached_withHidden,
        State.flush_withHidden]

theorem State.setPort_withHidden (a : CacheArray) (list : List Byte) :
    (s.withHidden h buf n).setPort a list = (s.setPort a list).withHidden h buf n := by
  cases hl : listOk list with
  | false =>
    rw [State.setPort_invalid hl, State.setPort_invalid hl]
    rfl
  | true => rw [State.setPort_valid hl, State.setPort_valid hl, State.setCached_withHidden, State.flush_withHidden]

theorem exec_withHidden (i : Instr) :
    ∃ t, exec i s = .next t ∧ exec i (s.withHidden h buf n) = .next (t.withHidden h buf n) := by
  cases i with
  | isConnected | beginCmd | getMode | getInversion | getGpio | digitalReadPort =>
    exact ⟨_, rfl, congrArg Host.Outcome.next (s.issue_withHidden h buf n _)⟩
  | setMode | setInversion | setGpio => exact ⟨_, rfl, congrArg Host.Outcome.next (s.flush_withHidden h buf n _)⟩
  | pinMode pin val | invertPin pin val | digitalWrite pin val =>
    exact ⟨_, rfl, congrArg Host.Outcome.next (s.setPin_withHidden h buf n _ pin val _)⟩
  | pinModePort list | invertPinPort list | digitalWritePort list =>
    exact ⟨_, rfl, congrArg Host.Outcome.next (s.setPort_withHidden h buf n _ list)⟩
  | digitalRead pin =>
    cases hp : pinIndex pin with
    | none => exact ⟨s.noop, by simp [exec, execDigitalRead, hp], by simp only [exec, execDigitalRead, hp]; rfl⟩
    | some j =>
      exact ⟨s.issue (.read (.inpPin j)), by simp [exec, execDigitalRead, hp],
        by simp [exec, execDigitalRead, hp, State.issue_withHidden]⟩

end

/-! ### Outcomes that agree -/

/-- Where no command is in progress, the hidden registers may hold anything. -/
theorem SameButHidden.of_ended {s : State} (hend : s.fsm = .idle ∨ s.fsm = .fault ∨ ∃ op, s.fsm = .bus op) (h : Word)
    (buf : Vector Byte 255) (n : Byte) : SameButHidden s (s.withHidden h buf n) := by
  obtain ⟨hr, hx⟩ : s.fsm ≠ .recv ∧ s.fsm ≠ .exec := by
    rcases hend with hf | hf | ⟨_, hf⟩ <;> simp [hf]
  exact ⟨rfl, fun hf => absurd hf hr, fun hf => absurd hf hx⟩

theorem OutcomesSameButHidden.refl (o : Host.Outcome State Fault Refusal) : OutcomesSameButHidden o o := by
  cases o with
  | next s => exact ⟨rfl, fun _ => ⟨rfl, rfl, fun _ _ => rfl⟩, fun _ => ⟨rfl, fun _ _ => rfl⟩⟩
  | fault f => rfl
  | refused r => rfl

theorem exec_sameButHidden (i : Instr) (s : State) (h : Word) (buf : Vector Byte 255) (n : Byte) :
    OutcomesSameButHidden (exec i s) (exec i (s.withHidden h buf n)) := by
  obtain ⟨t, hs, hhidden⟩ := exec_withHidden s h buf n i
  rw [hs, hhidden]
  exact .of_ended (exec_fsm hs) h buf n

/-! ### Taking words -/

theorem launch_error {s : State} {e : DecodeError} (he : decodeHeader s.hdr = .error e) :
    launch s = .done (.fault .headerNotAccepted) := by
  simp [launch, decodeCommand, he]

/-- A launch uses HDR and the entries of the payload that HDR announces. -/
theorem launch_sameButHidden {s : State} {buf : Vector Byte 255}
    (hb : ∀ j, j < payloadLen s.hdr → buf.toList[j]? = s.listBuf.toList[j]?) (n : Byte) :
    OutcomesSameButHidden (launch s).outcome (launch (s.withHidden s.hdr buf n)).outcome := by
  cases ho : decodeHeader s.hdr with
  | error e =>
    rw [launch_error ho, launch_error (s := s.withHidden s.hdr buf n) ho]
    exact .refl _
  | ok op =>
    have hreceived : (s.withHidden s.hdr buf n).received = s.received := by
      apply List.ext_getElem?
      intro j
      simp only [State.received, State.withHidden, List.getElem?_take]
      split
      · exact hb j ‹_›
      · rfl
    rw [launch_outcome rfl ho rfl, launch_outcome (s := s.withHidden s.hdr buf n) rfl ho hreceived]
    exact exec_sameButHidden _ { s with fsm := .exec } s.hdr buf n

theorem receive_legal {s : State} {w : Word} {ws : List Word} (h : s.listCnt.toNat < (lenField s.hdr).toNat)
    (hw : payloadLegal w = true) : receive (w :: ws) s = receive ws (s.takeWord w ws) := by
  simp [receive, h, hw]

theorem receive_complete_sameButHidden {ws : List Word} {s : State} {buf : Vector Byte 255}
    (hle : (lenField s.hdr).toNat ≤ s.listCnt.toNat)
    (hb : ∀ j, j < s.listCnt.toNat → buf.toList[j]? = s.listBuf.toList[j]?) :
    OutcomesSameButHidden (receive ws s).outcome (receive ws (s.withHidden s.hdr buf s.listCnt)).outcome := by
  rw [receive_complete hle, receive_complete (s := s.withHidden s.hdr buf s.listCnt) hle]
  exact launch_sameButHidden (fun j hj => hb j (Nat.lt_of_lt_of_le hj ((payloadLen_le _).trans hle))) _

/-- Receiving a payload uses HDR, LISTCNT and the entries received. -/
theorem receive_sameButHidden {ws : List Word} {s : State} {buf : Vector Byte 255} (hf : s.fsm = .recv)
    (hb : ∀ j, j < s.listCnt.toNat → buf.toList[j]? = s.listBuf.toList[j]?) :
    OutcomesSameButHidden (receive ws s).outcome (receive ws (s.withHidden s.hdr buf s.listCnt)).outcome := by
  induction ws generalizing s buf with
  | nil =>
    by_cases hlt : s.listCnt.toNat < (lenField s.hdr).toNat
    · rw [receive_wait hlt, receive_wait (s := s.withHidden s.hdr buf s.listCnt) hlt]
      exact ⟨rfl, fun _ => ⟨rfl, rfl, hb⟩, fun hx => by simp [hf] at hx⟩
    · exact receive_complete_sameButHidden (Nat.le_of_not_lt hlt) hb
  | cons w ws ih =>
    by_cases hlt : s.listCnt.toNat < (lenField s.hdr).toNat
    · cases hw : payloadLegal w with
      | false =>
        rw [receive_bad hlt hw, receive_bad (s := s.withHidden s.hdr buf s.listCnt) hlt hw]
        exact .of_ended (s := { s with cmdIn := ws }.raiseFault .illegalCommand) (.inr (.inl rfl)) s.hdr buf s.listCnt
      | true =>
        rw [receive_legal hlt hw, receive_legal (s := s.withHidden s.hdr buf s.listCnt) hlt hw]
        refine ih (s := s.takeWord w ws) (buf := storeEntry buf s.listCnt (payloadElement w)) hf fun j hj => ?_
        have hcnt : (s.listCnt + 1).toNat = s.listCnt.toNat + 1 := by
          have := (lenField s.hdr).isLt
          rw [BitVec.toNat_add]
          simp
          omega
        rw [State.takeWord_listCnt, hcnt] at hj
        rw [State.takeWord_listBuf, storeEntry_getElem?, storeEntry_getElem?]
        split
        · rfl
        · have := (lenField s.hdr).isLt
          exact hb j (by omega)
    · exact receive_complete_sameButHidden (Nat.le_of_not_lt hlt) hb

/-- Taking a header uses none of the hidden registers: it sets those that its command will use. -/
theorem takeHeader_sameButHidden (w : Word) (ws : List Word) (s : State) (h : Word) (buf : Vector Byte 255) (n : Byte) :
    OutcomesSameButHidden (takeHeader w ws s).outcome (takeHeader w ws (s.withHidden h buf n)).outcome := by
  cases ho : decodeHeader w with
  | error e =>
    rw [takeHeader_error ho, takeHeader_error ho]
    exact .of_ended (s := { s with cmdIn := ws }.raiseFault .illegalCommand) (.inr (.inl rfl)) h buf n
  | ok op =>
    have hpl := payloadLen_of_ok ho
    by_cases hl : op.format = .l
    · by_cases hz : lenField w = 0
      · have hp0 : payloadLen w = 0 := by simp [hpl, hz]
        rw [takeHeader_empty ho hl hz, takeHeader_empty ho hl hz]
        exact launch_sameButHidden (s := { s with cmdIn := ws, hdr := w, listCnt := 0 }) (by simp [hp0]) 0
      · rw [takeHeader_list ho hl hz, takeHeader_list ho hl hz]
        exact receive_sameButHidden (s := { s with cmdIn := ws, hdr := w, listCnt := 0, fsm := .recv }) rfl (by simp)
    · have hp0 : payloadLen w = 0 := by simp [hpl, hl]
      rw [takeHeader_single ho hl, takeHeader_single ho hl]
      exact launch_sameButHidden (s := { s with cmdIn := ws, hdr := w }) (by simp [hp0]) n

/-! ### A step -/

theorem fetchByFsm_sameButHidden {s : State} {h : Word} {buf : Vector Byte 255} {n : Byte}
    (hst : SameButHidden s (s.withHidden h buf n)) :
    OutcomesSameButHidden (fetchByFsm s).outcome (fetchByFsm (s.withHidden h buf n)).outcome := by
  obtain ⟨_, hrecv, hexec⟩ := hst
  cases hf : s.fsm with
  | idle =>
    cases hw : s.cmdIn with
    | nil =>
      rw [fetchByFsm_idle_none hf hw, fetchByFsm_idle_none (s := s.withHidden h buf n) hf hw]
      exact .of_ended (.inl hf) h buf n
    | cons w ws =>
      rw [fetchByFsm_idle hf hw, fetchByFsm_idle (s := s.withHidden h buf n) hf hw]
      exact takeHeader_sameButHidden w ws s h buf n
  | recv =>
    obtain ⟨rfl, rfl, hb⟩ := hrecv hf
    rw [fetchByFsm_recv hf, fetchByFsm_recv (s := s.withHidden s.hdr buf s.listCnt) hf]
    exact receive_sameButHidden hf hb
  | exec =>
    obtain ⟨rfl, hb⟩ := hexec hf
    rw [fetchByFsm_exec hf, fetchByFsm_exec (s := s.withHidden s.hdr buf n) hf]
    exact launch_sameButHidden hb n
  | bus op =>
    rw [fetchByFsm_bus hf, fetchByFsm_bus (s := s.withHidden h buf n) hf, State.awaitBus_withHidden]
    exact .of_ended ((s.awaitBus_fsm op).imp_right (.imp_right fun hbus => ⟨op, hbus⟩)) h buf n
  | fault =>
    rw [fetchByFsm_fault hf, fetchByFsm_fault (s := s.withHidden h buf n) hf]
    exact .of_ended (.inr (.inl hf)) h buf n

/-- Settles O55: a refusal and a reset do not look at the hidden registers, and what FSM decides uses only the parts of them
on which the two states agree. -/
theorem hiddenRegistersCarryNoMeaning : Obligations.HiddenRegistersCarryNoMeaning := by
  intro s t hst
  obtain ⟨h, buf, n, rfl⟩ : ∃ h buf n, t = s.withHidden h buf n := ⟨_, _, _, hst.1⟩
  cases hc : configRefusal s.cfg with
  | some r =>
    rw [step_of_refused hc, step_of_refused (s := s.withHidden h buf n) hc]
    exact .refl _
  | none =>
    cases hr : s.resetReq with
    | some req =>
      rw [step_of_reset hc hr, step_of_reset (s := s.withHidden h buf n) hc hr]
      exact .refl (serviceReset req s)
    | none =>
      rw [step_of_running hc hr, step_of_running (s := s.withHidden h buf n) hc hr]
      exact fetchByFsm_sameButHidden hst

end Sys2Proof.Machine
end

-- Proofs: the bus transport
section
/-!
PROOFS. The transport and the waits for it (spec/20_memory.md R66, R76; spec/70_reset_and_hazards.md R202, R203): the
reference device, a command that waits in BUS, and the states that wait without end.
-/

namespace Sys2Proof.Machine

/-! ### The reference device (R76) -/

@[simp] theorem RefDevice.answer_read (dev : RefDevice) (r : RemoteReg) :
    dev.answer (.read r) = (⟨true, dev.readReg r, 1⟩, dev) := rfl

@[simp] theorem RefDevice.answer_write (dev : RefDevice) (r : RemoteReg) (v : Byte) :
    dev.answer (.write r v) = (⟨true, 0, 1⟩, dev.writeReg r v) := rfl

theorem RefDevice.answer_present_ok (dev : RefDevice) (x : Txn) :
    (dev.answer x).1.ok = true ∧ (dev.answer x).1.present = 1 := by
  cases x <;> exact ⟨rfl, rfl⟩

theorem RefDevice.readReg_writeReg_same (dev : RefDevice) {r : RemoteReg} (v : Byte) (hr : r ≠ .inputPort) :
    (dev.writeReg r v).readReg r = v := by
  cases r with
  | inputPort => exact absurd rfl hr
  | outputPort | inversion | configuration => rfl

/-- A register other than INPUT_PORT holds what it held when another one is written. -/
theorem RefDevice.readReg_writeReg_ne (dev : RefDevice) {r r' : RemoteReg} (v : Byte) (hne : r' ≠ r)
    (hr' : r' ≠ .inputPort) : (dev.writeReg r v).readReg r' = dev.readReg r' := by
  cases r' with
  | inputPort => exact absurd rfl hr'
  | outputPort | inversion | configuration =>
    cases r <;> simp_all [RefDevice.writeReg, RefDevice.readReg]

/-- INPUT_PORT shows the pin levels through the new inversion, and through nothing else that is written. -/
theorem RefDevice.readReg_inputPort_writeReg (dev : RefDevice) (r : RemoteReg) (v : Byte) :
    (dev.writeReg r v).readReg .inputPort = dev.pinLvl ^^^ (if r = .inversion then v else dev.inv) := by
  cases r <;> rfl

/-- Settles O57: a read is answered with `readReg` of the device that a write leaves, by the rules above. -/
theorem referenceDeviceRemembersWrites : Obligations.ReferenceDeviceRemembersWrites := by
  intro dev r v hr
  exact ⟨dev.answer_present_ok, ⟨rfl, rfl, rfl, rfl⟩, dev.readReg_writeReg_same v hr,
    fun _ hne hr' => dev.readReg_writeReg_ne v hne hr', dev.readReg_inputPort_writeReg r v, rfl⟩

/-! ### Waiting in BUS (R66) -/

theorem step_of_bus_unanswered {s : State} {op : BusOp} {tr : Transport} (hc : configRefusal s.cfg = none)
    (hr : s.resetReq = none) (hf : s.fsm = .bus op) (ha : s.transport.ask op.txn = (none, tr)) :
    step s = .next { s with transport := tr } := by
  rw [step_of_bus hc hr hf, State.awaitBus_none ha, ← hf]

/-- However often a transport that never answers is asked, being asked is all that changes. -/
theorem steps_of_bus_neverAnswers {s : State} {op : BusOp} (hc : configRefusal s.cfg = none) (hr : s.resetReq = none)
    (hf : s.fsm = .bus op) (hn : s.transport.NeverAnswers op.txn) (n : Nat) :
    steps n s = .next { s with transport := s.transport.polled op.txn n } := by
  induction n generalizing s with
  | zero => rfl
  | succ n ih =>
    obtain ⟨ha, hn'⟩ := hn.ask
    rw [steps_succ n (step_of_bus_unanswered hc hr hf ha)]
    exact ih (s := { s with transport := (s.transport.ask op.txn).2 }) hc hr hf hn'

theorem State.stuck_of_bus {s : State} {op : BusOp} (hc : configRefusal s.cfg = none) (hr : s.resetReq = none)
    (hf : s.fsm = .bus op) (hn : s.transport.NeverAnswers op.txn) : s.Stuck :=
  ⟨.inl ⟨op, hf⟩, fun n => ⟨_, steps_of_bus_neverAnswers hc hr hf hn n⟩⟩

/-- Settles O42: a step in BUS without an answer changes the transport alone, and so does every later one. -/
theorem busWaitsForTheTransport : Obligations.BusWaitsForTheTransport :=
  fun _ _ _ hc hr hf ha => ⟨step_of_bus_unanswered hc hr hf ha, State.stuck_of_bus hc hr hf⟩

/-! ### A command asks the transport at most once (R66) -/

/-- What runs under each transport `tr` to `f tr` asks for one transaction, the same in the same state whatever the
transport, or ends without asking. -/
inductive AsksOnce (f : Transport → State) : Prop
  | ends (u : State) (hu : ∀ op, u.fsm ≠ .bus op) (hf : ∀ tr, f tr = { u with transport := tr })
  | asks (op : BusOp) (u : State) (hf : ∀ tr, f tr = { u with transport := tr }.awaitBus op)

section

variable (s : State)

theorem State.noop_asksOnce : AsksOnce fun tr => { s with transport := tr }.noop :=
  .ends s.noop nofun fun _ => rfl

theorem State.issue_asksOnce (op : BusOp) : AsksOnce fun tr => { s with transport := tr }.issue op :=
  .asks op s fun _ => State.issue_eq _ op

/-- PACK comes before the transaction and does not look at the transport (R111, R173). -/
theorem State.flush_asksOnce (a : CacheArray) : AsksOnce fun tr => { s with transport := tr }.flush a := by
  have hcached : ∀ tr, { s with transport := tr }.cached a = s.cached a := fun _ => State.cached_congr rfl rfl rfl a
  rcases pack_error_or_ok s.cfg.nonbinaryPack (s.cached a) with ⟨c, hp⟩ | ⟨b, hp⟩
  · exact .ends (s.raiseFault c) nofun fun tr => State.flush_error (by rwa [hcached])
  · refine .asks (.write a b) s fun tr => ?_
    rw [State.flush_ok (b := b) (by rwa [hcached]), State.issue_eq]

theorem State.flush_setCached_asksOnce (a : CacheArray) (v : PinArray) :
    AsksOnce fun tr => ({ s with transport := tr }.setCached a v).flush a := by
  have h := (s.setCached a v).flush_asksOnce a
  cases a <;> exact h

theorem State.setPin_asksOnce (a : CacheArray) (pin val : Byte) (ok : Bool) :
    AsksOnce fun tr => { s with transport := tr }.setPin a pin val ok := by
  cases hp : pinIndex pin with
  | none => simpa only [State.setPin_invalidPin hp] using s.noop_asksOnce
  | some i =>
    cases ok with
    | false => simpa only [State.setPin_invalidValue] using s.noop_asksOnce
    | true =>
      have hcached : ∀ tr, { s with transport := tr }.cached a = s.cached a := fun _ => State.cached_congr rfl rfl rfl a
      simpa only [State.setPin_valid hp, hcached] using s.flush_setCached_asksOnce a _

theorem State.setPort_asksOnce (a : CacheArray) (list : List Byte) :
    AsksOnce fun tr => { s with transport := tr }.setPort a list := by
  cases hl : listOk list with
  | false => simpa only [State.setPort_invalid hl] using s.noop_asksOnce
  | true => simpa only [State.setPort_valid hl] using s.flush_setCached_asksOnce a _

/-- Every command begins in the same way whatever the transport, and asks it at most once (R66). -/
theorem exec_asksOnce (i : Instr) :
    ∃ f, AsksOnce f ∧ ∀ tr, exec i { s with transport := tr } = .next (f tr) := by
  cases i with
  | isConnected | beginCmd | getMode | getInversion | getGpio | digitalReadPort =>
    exact ⟨_, s.issue_asksOnce _, fun _ => rfl⟩
  | setMode | setInversion | setGpio => exact ⟨_, s.flush_asksOnce _, fun _ => rfl⟩
  | pinMode pin val | digitalWrite pin val => exact ⟨_, s.setPin_asksOnce _ pin val _, fun _ => rfl⟩
  | invertPin pin val =>
    exact ⟨_, s.setPin_asksOnce .inv pin val (!s.cfg.invertPinValidates || binary val), fun _ => rfl⟩
  | pinModePort list | invertPinPort list | digitalWritePort list =>
    exact ⟨_, s.setPort_asksOnce _ list, fun _ => rfl⟩
  | digitalRead pin =>
    cases hp : pinIndex pin with
    | none => exact ⟨_, s.noop_asksOnce, fun _ => by simp [exec, execDigitalRead, hp]⟩
    | some j => exact ⟨_, s.issue_asksOnce (.read (.inpPin j)), fun _ => by simp [exec, execDigitalRead, hp]⟩

end

/-- Settles O43: the command asks for its transaction in one state `u`, waits there with the question put, and asks again
from it. -/
theorem busAnswerMayComeLater : Obligations.BusAnswerMayComeLater := by
  intro i s t answers op htr h hf hc hr
  obtain ⟨hcfg, _, _, _, _, hreq⟩ := exec_frame h
  obtain ⟨f, hasks, he⟩ := exec_asksOnce s i
  obtain rfl : f (.draws (none :: answers)) = t := by
    rw [← htr]
    exact Host.Outcome.next.inj ((he s.transport).symm.trans h)
  rw [he (.draws answers)]
  cases hasks with
  | ends u hu hfu =>
    rw [hfu] at hf
    exact absurd hf (hu op)
  | asks op' u hfu =>
    have hwait : f (.draws (none :: answers)) = { u with transport := .draws answers, fsm := .bus op' } :=
      (hfu _).trans (State.awaitBus_none rfl)
    obtain rfl : op' = op := by simpa [hwait] using hf
    rw [step_of_bus (hcfg ▸ hc) (hreq.trans hr) hf, hwait, hfu, ← State.issue_eq]
    rfl

/-! ### The stuck states (R203) -/

/-- With payload to come and no word offered, the controller stays in RECV as it is. -/
theorem step_of_recv_wait {s : State} (hc : configRefusal s.cfg = none) (hr : s.resetReq = none) (hf : s.fsm = .recv)
    (hw : s.cmdIn = []) (hl : s.listCnt.toNat < (lenField s.hdr).toNat) : step s = .next s := by
  rw [step_of_running hc hr, fetchByFsm_recv hf, hw, receive_wait hl, Fetched.outcome_done]

theorem steps_of_step_self {s : State} (h : step s = .next s) (n : Nat) : steps n s = .next s := by
  induction n with
  | zero => rfl
  | succ n ih => rw [steps_succ n h, ih]

/-- A step of a stuck state changes the transport alone and leads to a stuck state. -/
theorem State.Stuck.step_next {s : State} (h : s.Stuck) :
    ∃ tr, step s = .next { s with transport := tr } ∧ { s with transport := tr }.Stuck := by
  obtain ⟨hf, hsteps⟩ := h
  obtain ⟨tr, h1⟩ := hsteps 1
  rw [steps_one] at h1
  refine ⟨tr, h1, hf, fun n => ?_⟩
  obtain ⟨tr', hn⟩ := hsteps (n + 1)
  exact ⟨tr', (steps_succ n h1).symm.trans hn⟩

/-- A reset would have been served, and would have left BUS and RECV. -/
theorem State.Stuck.resetReq_none {s : State} (h : s.Stuck) : s.resetReq = none := by
  obtain ⟨tr, hstep, _⟩ := h.step_next
  rcases step_next_cases hstep with ⟨hr, _⟩ | ⟨req, _, hserve⟩
  · exact hr
  · obtain ⟨_, _, hconstruct⟩ := serviceReset_next hserve
    have hidle : s.fsm = .idle := congrArg State.fsm hconstruct
    rcases h.1 with ⟨op, hf⟩ | hf <;> exact nomatch hf.symm.trans hidle

/-- In BUS an answer ends the command, so a stuck state has none, and its step is the transport asked once. -/
theorem State.Stuck.ask_none {s : State} {op : BusOp} (h : s.Stuck) (hf : s.fsm = .bus op) :
    (s.transport.ask op.txn).1 = none ∧ { s with transport := (s.transport.ask op.txn).2 }.Stuck := by
  obtain ⟨tr, hstep, hstuck⟩ := h.step_next
  have hbus : s.awaitBus op = { s with transport := tr } :=
    Host.Outcome.next.inj ((step_of_bus (configRefusal_of_step hstep) h.resetReq_none hf).symm.trans hstep)
  rcases ha : s.transport.ask op.txn with ⟨_ | d, tr'⟩
  · rw [State.awaitBus_none ha] at hbus
    obtain rfl : tr' = tr := congrArg State.transport hbus
    exact ⟨rfl, hstuck⟩
  · rw [State.awaitBus_some ha] at hbus
    have hfsm : ({ s with transport := tr' }.finish op d).fsm = .bus op := by rw [hbus, ← hf]
    rcases State.finish_fsm { s with transport := tr' } op d with h' | h' <;> exact nomatch h'.symm.trans hfsm

theorem State.Stuck.neverAnswers {s : State} {op : BusOp} (h : s.Stuck) (hf : s.fsm = .bus op) :
    s.transport.NeverAnswers op.txn := by
  intro n
  induction n generalizing s with
  | zero => exact (h.ask_none hf).1
  | succ n ih => exact ih (h.ask_none hf).2 hf

/-- In RECV a stuck state has no word to take, and payload to wait for. -/
theorem State.Stuck.recv_waits {s : State} (h : s.Stuck) (hf : s.fsm = .recv) :
    s.cmdIn = [] ∧ s.listCnt.toNat < (lenField s.hdr).toNat := by
  obtain ⟨tr, hstep, _⟩ := h.step_next
  rw [step_of_running (configRefusal_of_step hstep) h.resetReq_none, fetchByFsm_recv hf] at hstep
  obtain ⟨ht, _, hlt⟩ := receive_ends_in_recv hstep rfl hf
  exact ⟨congrArg State.cmdIn ht, by omega⟩

/-- Settles O59: a stuck state in BUS has a transport that never answers and one in RECV waits for words that are not
offered; either wait leads nowhere else. -/
theorem stuckStatesAreTheEndlessWaits : Obligations.StuckStatesAreTheEndlessWaits := by
  intro s
  constructor
  · intro h
    obtain ⟨tr, hstep, _⟩ := h.step_next
    refine ⟨configRefusal_of_step hstep, h.resetReq_none, ?_⟩
    rcases h.1 with ⟨op, hf⟩ | hf
    · exact .inl ⟨op, hf, h.neverAnswers hf⟩
    · exact .inr ⟨hf, h.recv_waits hf⟩
  · rintro ⟨hc, hr, ⟨op, hf, hn⟩ | ⟨hf, hw, hl⟩⟩
    · exact State.stuck_of_bus hc hr hf hn
    · exact ⟨.inr hf, fun n => ⟨s.transport, steps_of_step_self (step_of_recv_wait hc hr hf hw hl) n⟩⟩

end Sys2Proof.Machine
end

-- Proofs: the encoding
section
/-!
PROOFS. The encoding of commands (spec/30_encoding.md): the decoder and the encoder are inverse to each other (R81 to R89),
which words are legal (R82, R86, R87), and what the assembler accepts (R91).
-/

namespace Sys2Proof

/-! ### The operands of a command -/

theorem Opcode.pinOperand_command (op : Opcode) (pin val : Byte) (list : List Byte) :
    (op.command pin val list).pinOperand = if op.format = .p ∨ op.format = .pv then pin else 0 := by cases op <;> rfl

theorem Opcode.valOperand_command (op : Opcode) (pin val : Byte) (list : List Byte) :
    (op.command pin val list).valOperand = if op.format = .pv then val else 0 := by cases op <;> rfl

/-- A command can be encoded exactly when its list fits the LEN field (R85). -/
theorem Instr.wellFormed_iff (i : Instr) : i.wellFormed = true ↔ i.listOperand.length ≤ 255 := by
  cases i <;> simp [Instr.wellFormed, Instr.listOperand, listFits]

theorem Opcode.command_wellFormed (op : Opcode) (pin val : Byte) {list : List Byte} (h : list.length ≤ 255) :
    (op.command pin val list).wellFormed = true := by
  rw [Instr.wellFormed_iff, Opcode.listOperand_command]
  split
  · exact h
  · exact Nat.zero_le _

/-! ### The decoder and the encoder -/

@[simp] theorem pinField_header (i : Instr) : pinField i.header = i.pinOperand := pinField_headerWord ..
@[simp] theorem valField_header (i : Instr) : valField i.header = i.valOperand := valField_headerWord ..

/-- A legal header and the payload words it announces decode to its command (R85, R89). -/
theorem decode_of_legal {h : Word} {op : Opcode} {list : List Byte} (ho : decodeHeader h = .ok op)
    (hlen : list.length = payloadLen h) (rest : List Word) :
    decode (h :: (list.map payloadWord ++ rest)) = .ok (op.command (pinField h) (valField h) list, rest) := by
  simp [decode, ho, ← hlen, takePayload_payloadWords]

/-- Settles O1: the header the encoder writes is legal, announces the list, and carries the operands. -/
theorem decodeOfEncode : Obligations.DecodeOfEncode := by
  intro i rest hwf
  have hdec := decode_of_legal (decodeHeader_header i) (payloadLen_header i hwf).symm rest
  rwa [pinField_header, valField_header, Instr.command_opcode] at hdec

/-- A legal header is the one the encoder writes for its command: what the format does not use is zero (R82). -/
theorem header_command {h : Word} {op : Opcode} {list : List Byte} (ho : decodeHeader h = .ok op)
    (hlen : list.length = payloadLen h) : (op.command (pinField h) (valField h) list).header = h := by
  obtain ⟨hrsv, hcode, hunused⟩ := (decodeHeader_eq_ok h op).1 ho
  obtain ⟨hpin, hval, hlenField⟩ := (unusedZero_iff op.format h hrsv).1 hunused
  have pin : (op.command (pinField h) (valField h) list).pinOperand = pinField h := by
    rw [Opcode.pinOperand_command]
    split
    · rfl
    · next hf => exact (hpin (fun hp => hf (.inl hp)) (fun hpv => hf (.inr hpv))).symm
  have val : (op.command (pinField h) (valField h) list).valOperand = valField h := by
    rw [Opcode.valOperand_command]
    split
    · rfl
    · next hf => exact (hval hf).symm
  have len : BitVec.ofNat 8 (op.command (pinField h) (valField h) list).listOperand.length = lenField h := by
    rw [Opcode.listOperand_command]
    split
    · next hf => simp [hlen, payloadLen_of_ok ho, hf]
    · next hf => exact (hlenField hf).symm
  rw [Instr.header, Opcode.opcode_command, pin, val, len, ← hcode]
  exact (headerWord_fields h hrsv).symm

/-- The list of a decoded command is all that came: formats without a list announce none (R85). -/
theorem listOperand_command_of_ok {h : Word} {op : Opcode} {list : List Byte} (ho : decodeHeader h = .ok op)
    (hlen : list.length = payloadLen h) (pin val : Byte) : (op.command pin val list).listOperand = list := by
  rw [Opcode.listOperand_command]
  split
  · rfl
  · next hf =>
    rw [payloadLen_of_ok ho, if_neg hf] at hlen
    exact (List.eq_nil_of_length_eq_zero hlen).symm

/-- Settles O2: the header is the encoder's, the payload words are those of the list, and LEN, a byte, bounds the list. -/
theorem encodeOfDecode : Obligations.EncodeOfDecode := by
  intro ws i rest h
  obtain ⟨hd, op, list, ho, rfl, hlen, rfl⟩ := decode_ok h
  constructor
  · rw [encode, header_command ho hlen, listOperand_command_of_ok ho hlen, List.cons_append]
  · apply Opcode.command_wellFormed
    have := payloadLen_le hd
    have := (lenField hd).isLt
    omega

/-! ### The rows of the opcode table -/

/-- Two words are equal when their fields are (R81). -/
theorem word_eq_iff_fields (a b : Word) : a = b ↔ opField a = opField b ∧ rsvField a = rsvField b ∧
    pinField a = pinField b ∧ valField a = valField b ∧ lenField a = lenField b := by
  constructor
  · rintro rfl
    exact ⟨rfl, rfl, rfl, rfl, rfl⟩
  · rintro ⟨hop, hrsv, hpin, hval, hlen⟩
    simp only [opField, rsvField, pinField, valField, lenField, BitVec.toNat_eq, BitVec.extractLsb'_toNat,
      Nat.shiftRight_eq_div_pow] at hop hrsv hpin hval hlen ⊢
    omega

/-- The bits of a header that a format fixes: OP, RSV and every field the format does not use (R82). -/
def Format.mask : Format → Word
  | .n => 0xFFFFFFFF
  | .p => 0xFFFF00FF
  | .pv => 0xFF0000FF
  | .l => 0x00FFFFFF

/-- The mask keeps OP and RSV, and of the other fields those the format does not use (R82). -/
theorem Format.fields_mask (f : Format) :
    opField f.mask = BitVec.allOnes 5 ∧ rsvField f.mask = BitVec.allOnes 3 ∧
    pinField f.mask = (if f = .p ∨ f = .pv then 0 else BitVec.allOnes 8) ∧
    valField f.mask = (if f = .pv then 0 else BitVec.allOnes 8) ∧
    lenField f.mask = (if f = .l then 0 else BitVec.allOnes 8) := by cases f <;> decide

/-- The masked bits of a header are an OP field alone exactly when the header passes the tests of R89. -/
theorem and_mask_eq_iff (f : Format) (c : BitVec 5) (h : Word) :
    h &&& f.mask = headerWord c 0 0 0 ↔ rsvField h = 0 ∧ opField h = c ∧ unusedZero f h = true := by
  obtain ⟨mop, mrsv, mpin, mval, mlen⟩ := f.fields_mask
  have hop : opField (h &&& f.mask) = opField h &&& opField f.mask := BitVec.extractLsb'_and
  have hrsv : rsvField (h &&& f.mask) = rsvField h &&& rsvField f.mask := BitVec.extractLsb'_and
  have hpin : pinField (h &&& f.mask) = pinField h &&& pinField f.mask := BitVec.extractLsb'_and
  have hval : valField (h &&& f.mask) = valField h &&& valField f.mask := BitVec.extractLsb'_and
  have hlen : lenField (h &&& f.mask) = lenField h &&& lenField f.mask := BitVec.extractLsb'_and
  rw [mop, BitVec.and_allOnes] at hop
  rw [mrsv, BitVec.and_allOnes] at hrsv
  rw [word_eq_iff_fields, opField_headerWord, rsvField_headerWord, pinField_headerWord, valField_headerWord,
    lenField_headerWord, hop, hrsv, hpin, hval, hlen, mpin, mval, mlen, and_left_comm]
  refine and_congr_right fun hr => and_congr_right fun _ => ?_
  rw [unusedZero_iff f h hr]
  cases f <;> simp [-BitVec.reduceAllOnes]

/-- A header selects an opcode exactly when its masked bits are the opcode's code (R82, R86). -/
theorem decodeHeader_eq_ok_iff_mask (h : Word) (op : Opcode) :
    decodeHeader h = .ok op ↔ h &&& op.format.mask = headerWord op.code 0 0 0 :=
  (decodeHeader_eq_ok h op).trans (and_mask_eq_iff op.format op.code h).symm

/-- The row of an opcode in the opcode table: its mask over the header, and its match (R86). -/
def Opcode.row (op : Opcode) : Opcode × Word × Word := (op, op.format.mask, headerWord op.code 0 0 0)

/-- Settles O3: the rows written out are those of the opcodes, each with the mask of its format and its code as the match. -/
theorem legalHeadersAreTheRowsOfTheTable : Obligations.LegalHeadersAreTheRowsOfTheTable := by
  unfold Obligations.LegalHeadersAreTheRowsOfTheTable
  intro rows h
  have hrows : rows = Opcode.all.map Opcode.row := by
    simp only [rows]
    decide
  have hall : ∀ op, op ∈ Opcode.all := by
    intro op
    cases op <;> decide
  rw [hrows, List.forall_mem_map]
  exact ⟨fun op _ => decodeHeader_eq_ok_iff_mask h op, fun op _ => ⟨op.row, List.mem_map_of_mem (hall op), rfl⟩⟩

/-! ### The illegal words -/

/-- The reserved codes (R86, R87). -/
theorem Opcode.ofCode_eq_none_iff (c : BitVec 5) : Opcode.ofCode c = none ↔ c = 0x00#5 ∨ 0x11#5 ≤ c := by
  revert c
  decide

/-- The three ways in which the decoder refuses a header (R87, R89). -/
theorem decodeHeader_error_iff (h : Word) : (∃ e, decodeHeader h = .error e) ↔
    Opcode.ofCode (opField h) = none ∨ rsvField h ≠ 0 ∨
      ∃ op, Opcode.ofCode (opField h) = some op ∧ unusedZero op.format h = false := by
  unfold decodeHeader
  by_cases hr : rsvField h = 0
  · cases hc : Opcode.ofCode (opField h) with
    | none => simp [hr]
    | some op => cases hu : unusedZero op.format h <;> simp [hr, hu]
  · rw [if_pos (bne_iff_ne.2 hr)]
    exact iff_of_true ⟨_, rfl⟩ (.inr (.inl hr))

/-- `unusedZero_iff` from the side of the illegal headers (R87). -/
theorem unusedZero_eq_false_iff (f : Format) (h : Word) (hr : rsvField h = 0) :
    unusedZero f h = false ↔ (f ≠ .p ∧ f ≠ .pv ∧ pinField h ≠ 0) ∨ (f ≠ .pv ∧ valField h ≠ 0) ∨
      (f ≠ .l ∧ lenField h ≠ 0) := by
  rw [← Bool.not_eq_true, unusedZero_iff f h hr]
  tauto

/-- Settles O4: with RSV zero, the tests of R89 are those of the single fields; with RSV not zero both sides hold. -/
theorem illegalWordsAreThoseListed : Obligations.IllegalWordsAreThoseListed := by
  refine ⟨fun h => ?_, fun w => beq_eq_false_iff_ne⟩
  change _ ↔ (opField h = 0x00#5 ∨ 0x11#5 ≤ opField h) ∨ rsvField h ≠ 0 ∨
    ∃ op, Opcode.ofCode (opField h) = some op ∧
      ((op.format ≠ .p ∧ op.format ≠ .pv ∧ pinField h ≠ 0) ∨ (op.format ≠ .pv ∧ valField h ≠ 0) ∨
        (op.format ≠ .l ∧ lenField h ≠ 0))
  rw [decodeHeader_error_iff, Opcode.ofCode_eq_none_iff]
  by_cases hr : rsvField h = 0
  · simp only [unusedZero_eq_false_iff _ h hr]
  · exact iff_of_true (.inr (.inl hr)) (.inr (.inl hr))

/-! ### Sample words -/

/-- Settles O5, by running the decoder on the words. -/
theorem sampleWordsDecode : Obligations.SampleWordsDecode := by
  unfold Obligations.SampleWordsDecode
  decide

end Sys2Proof

namespace Sys2Proof.Machine

/-! ### An illegal header in IDLE -/

/-- Settles O38: in IDLE the header is taken, and an illegal one raises ILLEGAL_COMMAND. -/
theorem illegalHeaderFaults : Obligations.IllegalHeaderFaults := by
  intro s h rest e hc hr hf hw he
  rw [step_of_idle hc hr hf hw, takeHeader_error he]
  rfl

/-! ### The assembler -/

/-- A pin that is an integer is refused or encoded mod 256 (R91). -/
theorem asmPin_of_int {text : List Char} {n : Int} (h : asmInt text = some n) :
    asmPin text = if -128 ≤ n ∧ n ≤ 127 then .ok (BitVec.ofInt 8 (n % 256)) else .error .pinRange := by
  have hmod : BitVec.ofInt 8 (n % 256) = BitVec.ofInt 8 n := by
    apply BitVec.eq_of_toNat_eq
    simp
  rw [hmod, asmPin, h]

/-- A value that is an integer or a symbol is refused or taken (R91). -/
theorem asmValue_of_some {text : List Char} {n : Int} (h : (asmSymbol text).or (asmInt text) = some n) :
    asmValue text = if 0 ≤ n ∧ n ≤ 255 then .ok (BitVec.ofInt 8 n) else .error .valueRange := by
  rw [asmValue, h]

/-- A value within its field is not truncated (R91). -/
theorem toNat_ofInt_of_fits {n : Int} (h : 0 ≤ n ∧ n ≤ 255) : ((BitVec.ofInt 8 n).toNat : Int) = n := by
  rw [BitVec.toNat_ofInt]
  omega

/-- A symbol stands for 0 or 1 (R91). -/
theorem asmSymbol_range {text : List Char} {n : Int} (h : asmSymbol text = some n) : n = 0 ∨ n = 1 := by
  unfold asmSymbol at h
  split at h
  · exact .inl (Option.some.inj h).symm
  · split at h
    · exact .inr (Option.some.inj h).symm
    · exact nomatch h

/-- The elements of a list are the values of its parts, one for one (R91). -/
theorem asmValues_forall₂ {texts : List (List Char)} {vs : List Byte} (h : asmValues texts = .ok vs) :
    List.Forall₂ (fun text v => asmValue (asmTrim text) = .ok v) texts vs := by
  induction texts generalizing vs with
  | nil =>
    cases h
    exact .nil
  | cons text texts ih =>
    simp only [asmValues] at h
    split at h
    · exact nomatch h
    · next v hv =>
      split at h
      · exact nomatch h
      · next vs' hvs =>
        cases h
        exact .cons hv (ih hvs)

/-- A list between brackets that is not blank has the values of its parts, and is refused with more than 255 (R91). -/
theorem asmList_brackets {inside : List Char} {vs : List Byte} (hne : asmTrim inside ≠ [])
    (h : asmValues (asmSplit (asmTrim inside)) = .ok vs) :
    asmList ('[' :: (inside ++ [']'])) = if vs.length ≤ 255 then .ok vs else .error .listTooLong := by
  simp [asmList, hne, h]

/-- A list that is accepted fits the LEN field (R91). -/
theorem asmList_length {cs : List Char} {vs : List Byte} (h : asmList cs = .ok vs) : vs.length ≤ 255 := by
  unfold asmList at h
  split at h
  · split at h
    · dsimp only at h
      split at h
      · exact nomatch h
      · split at h
        · next hle =>
          cases h
          exact hle
        · exact nomatch h
    · exact nomatch h
  · exact nomatch h

/-- Operands that are accepted make a command that can be encoded (R91). -/
theorem asmOperands_wellFormed {op : Opcode} {cs : List Char} {i : Instr} (h : asmOperands op cs = .ok i) :
    i.wellFormed = true := by
  suffices ∃ pin val list, i = op.command pin val list ∧ list.length ≤ 255 by
    obtain ⟨pin, val, list, rfl, hlen⟩ := this
    exact op.command_wellFormed pin val hlen
  unfold asmOperands at h
  split at h
  · split at h
    · cases h
      exact ⟨0, 0, [], rfl, Nat.zero_le _⟩
    · exact nomatch h
  · split at h
    · next pin _ =>
      cases h
      exact ⟨pin, 0, [], rfl, Nat.zero_le _⟩
    · exact nomatch h
  · split at h
    · split at h
      · next pin val _ _ =>
        cases h
        exact ⟨pin, val, [], rfl, Nat.zero_le _⟩
      · exact nomatch h
      · exact nomatch h
    · exact nomatch h
  · split at h
    · next list hlist =>
      cases h
      exact ⟨0, 0, list, rfl, asmList_length hlist⟩
    · exact nomatch h

theorem assembleChars_wellFormed {line : List Char} {i : Instr} (h : assembleChars line = .ok i) :
    i.wellFormed = true := by
  simp only [assembleChars] at h
  split at h
  · exact nomatch h
  · exact asmOperands_wellFormed h

/-- Settles O6: a clause each for the line, the pin, the value, the symbol, the elements and the list. -/
theorem assembledCommandsFitTheirFields : Obligations.AssembledCommandsFitTheirFields := by
  refine ⟨fun line i => assembleChars_wellFormed, fun text n => asmPin_of_int, fun text n hn hs => ?_,
    fun text n hs => ?_, fun texts vs => asmValues_forall₂, fun inside vs => asmList_brackets⟩
  · have hvalue := asmValue_of_some (text := text) (n := n) (by rw [hs, Option.none_or, hn])
    refine ⟨fun hfit => ⟨BitVec.ofInt 8 n, ?_, toNat_ofInt_of_fits hfit⟩, fun hout => ?_⟩
    · rw [hvalue, if_pos hfit]
    · rw [hvalue, if_neg (by omega)]
  · have hrange := asmSymbol_range hs
    have hvalue := asmValue_of_some (text := text) (n := n) (by rw [hs, Option.some_or])
    exact ⟨hrange, by rw [hvalue, if_pos (by omega)]⟩

end Sys2Proof.Machine
end

-- Proofs: connectivity
section
/-!
PROOFS. The connectivity commands (spec/40_connectivity.md R100, R101): the one header of each, and the presence query both
issue.
-/

namespace Sys2Proof

/-! ### The header of an operand-free command -/

/-- No two opcodes share a code (R86). -/
theorem Opcode.code_injective : Function.Injective Opcode.code := fun a b h =>
  Option.some.inj (by rw [← Opcode.ofCode_code a, h, Opcode.ofCode_code])

/-- In format N the mask of the table keeps every bit, so the opcode alone makes the legal header (R82, R86). -/
theorem header_of_format_n {h : Word} {op : Opcode} (ho : decodeHeader h = .ok op) (hf : op.format = .n) :
    h = headerWord op.code 0 0 0 := by
  have hmask := (decodeHeader_eq_ok_iff_mask h op).1 ho
  rw [hf] at hmask
  exact BitVec.and_allOnes.symm.trans hmask

/-- With the code of a format N opcode, every word but its one legal header is illegal (R82, R87). -/
theorem decodeHeader_error_of_format_n {h : Word} {op : Opcode} (hf : op.format = .n) (hop : opField h = op.code)
    (hne : h ≠ headerWord op.code 0 0 0) : ∃ e, decodeHeader h = .error e := by
  cases ho : decodeHeader h with
  | error e => exact ⟨e, rfl⟩
  | ok op' =>
    obtain ⟨-, hop', -⟩ := (decodeHeader_eq_ok h op').1 ho
    obtain rfl : op' = op := Opcode.code_injective (hop'.symm.trans hop)
    exact absurd (header_of_format_n ho hf) hne

end Sys2Proof

namespace Sys2Proof.Machine

/-! ### The presence query -/

/-- A command that issues the presence query ends as its answer says, and waits in BUS until there is one (R65, R66). -/
theorem probeEnds_of_issue {i : Instr} {s : State} (h : exec i s = .next (s.issue .probe)) : ProbeEnds i s := by
  refine ⟨fun d t ha => ?_, fun t ha => ?_⟩
  · rw [h, State.issue_some (op := .probe) ha]
    rfl
  · rw [h, State.issue_none (op := .probe) ha]

theorem exec_isConnected (s : State) : exec .isConnected s = .next (s.issue .probe) := rfl

theorem exec_beginCmd (s : State) : exec .beginCmd s = .next (s.issue .probe) := rfl

/-! ### The obligations -/

/-- Settles O12: the format N header is the only legal one of its opcode, and the meaning is the presence query. -/
theorem isConnectedDoesItsRule : Obligations.IsConnectedDoesItsRule :=
  ⟨by decide, fun _ hop hne => decodeHeader_error_of_format_n (op := .isConnected) rfl hop hne,
    fun s => probeEnds_of_issue (exec_isConnected s)⟩

/-- Settles O13: both commands issue the presence query and nothing else. -/
theorem beginDoesItsRule : Obligations.BeginDoesItsRule :=
  ⟨by decide, fun s => ⟨probeEnds_of_issue (exec_beginCmd s), (exec_beginCmd s).trans (exec_isConnected s).symm⟩⟩

end Sys2Proof.Machine
end

-- Proofs: the register primitives
section
/-!
PROOFS. The pack and unpack engine (spec/41_register_primitives.md R111 to R114), the register-level commands built on
it (R115 to R120), and why the cached arrays always pack (R121).
-/

namespace Sys2Proof.Machine

/-! ### UNPACK (R113) -/

/-- Settles O7: element i is bit i of the byte, in either width. -/
theorem unpackTakesOneBitPerPin : Obligations.UnpackTakesOneBitPerPin := by
  intro b i
  refine ⟨unpack_binary b i, ?_⟩
  rw [unpack_getElem, unpackBits_getElem, ← Nat.toNat_testBit, BitVec.testBit_toNat]
  cases b.getLsbD i.val <;> simp

/-! ### PACK and the round trips (R111, R112, R114) -/

/-- The binary bytes are those that the policy `fault` lets pass (R111). -/
theorem byte_eq_zero_or_one_iff (e : Byte) : e = 0 ∨ e = 1 ↔ e.toNat ≤ 1 := by
  simp only [BitVec.toNat_eq, BitVec.ofNat_eq_ofNat, BitVec.toNat_ofNat]
  omega

/-- Settles O9: by the branch of `pack_fault`, and with no element above 1 the array is binary. -/
theorem packUnderFaultPolicy : Obligations.PackUnderFaultPolicy := by
  refine fun a => ⟨fun h => ?_, fun h => ?_⟩
  · rw [pack_fault, if_pos h]
  · exact pack_of_binary .fault fun i => (byte_eq_zero_or_one_iff _).2 (h i)

/-- Settles O10: by the branch of `pack_positional`; the byte is the low half of the ORed lanes. -/
theorem packUnderPositionalPolicy : Obligations.PackUnderPositionalPolicy := by
  refine fun a => ⟨fun h => ?_, fun h => ?_⟩
  · rw [pack_positional, if_pos h]
  · rw [pack_positional, if_neg fun ⟨i, hi⟩ => absurd (h i) (by omega)]
    refine ⟨_, rfl, fun j => ?_⟩
    have hj := j.isLt
    have hbit : ((orLanes 16 a).extractLsb' 0 8).getLsbD j.val = (orLanes 16 a).getLsbD j.val := by simp
    rw [hbit, getLsbD_orLanes, and_iff_right (by omega)]

/-- A binary array is recovered from a byte that holds its elements as bits (R113, R114). -/
theorem unpack_eq_of_bits {b : Byte} {a : PinArray} (ha : ∀ i : Fin 8, a[i] = 0 ∨ a[i] = 1)
    (hb : ∀ i : Fin 8, b.getLsbD i.val = a[i].getLsbD 0) : unpack b = a := by
  ext1 i hi
  have hbit : (unpack b)[i] = if a[i].getLsbD 0 then 1 else 0 := hb ⟨i, hi⟩ ▸ unpack_getElem b ⟨i, hi⟩
  rw [hbit]
  rcases ha ⟨i, hi⟩ with h | h <;> rw [show a[i] = _ from h] <;> rfl

/-- PACK inverts UNPACK under either policy (R114). -/
theorem pack_unpack (p : NonbinaryPack) (b : Byte) : pack p (unpack b) = .ok b := by
  obtain ⟨c, hc, hbits⟩ := pack_of_binary p (unpack_binary b)
  have hcb : c = b := by
    apply BitVec.eq_of_getLsbD_eq
    intro j hj
    have hbit : c.getLsbD j = (unpack b)[j].getLsbD 0 := hbits ⟨j, hj⟩
    rw [hbit, show (unpack b)[j] = _ from unpack_getElem b ⟨j, hj⟩]
    cases b.getLsbD j <;> rfl
  exact hcb ▸ hc

/-- Settles O8: a binary array is the one its packed bits unpack to, and what UNPACK gives is binary. -/
theorem packAndUnpackRoundTrip : Obligations.PackAndUnpackRoundTrip := by
  refine ⟨fun p a ha => ?_, pack_unpack, fun a i h0 h1 => ⟨?_, ?_⟩⟩
  · obtain ⟨b, hb, hbits⟩ := pack_of_binary p ha
    exact ⟨b, hb, unpack_eq_of_bits ha hbits⟩
  · have hi : ¬a[i].toNat ≤ 1 := mt (byte_eq_zero_or_one_iff _).2 (not_or.2 ⟨h0, h1⟩)
    rw [pack_fault, if_pos ⟨i, by omega⟩]
  · rintro b - rfl
    exact (unpack_binary b i).elim h0 h1

/-! ### The read and write of a command (R63, R64, R66) -/

/-- A command that issues a read ends as its answer says, and waits in BUS until there is one. -/
theorem readEnds_of_issue {i : Instr} {s : State} {use : ReadUse} (h : exec i s = .next (s.issue (.read use))) :
    ReadEnds i s use use.reg (use.refreshed s) use.returned := by
  rw [State.issue_eq] at h
  refine ⟨fun d t ha hok => ?_, fun d t ha hok => ⟨s.k, ?_⟩, fun t ha => ?_⟩
  · rw [h, State.awaitBus_some (op := .read use) ha, State.finish_completed t (by simp [BusOp.failure, hok])]
    cases use <;> simp only [State.answered, BusOp.event, hok] <;> rfl
  · rw [h, State.awaitBus_some (op := .read use) ha,
      State.finish_failed (c := .busReadError) t (by simp [BusOp.failure, hok])]
    simp only [State.answered, BusOp.event, hok]
    rfl
  · rw [h, State.awaitBus_none (op := .read use) ha]

/-- A command that issues a write ends as its answer says, and waits in BUS until there is one. -/
theorem writeEnds_of_issue {i : Instr} {s s1 : State} {a : CacheArray} {b : Byte}
    (h : exec i s = .next (s1.issue (.write a b))) : WriteEnds i s s1 a a.reg b := by
  rw [State.issue_eq] at h
  refine ⟨fun d t ha hok => ?_, fun d t ha hok => ⟨s1.k, ?_⟩, fun t ha => ?_⟩
  · rw [h, State.awaitBus_some (op := .write a b) ha, State.finish_completed t (by simp [BusOp.failure, hok])]
    simp only [State.answered, BusOp.event, hok]
    rfl
  · rw [h, State.awaitBus_some (op := .write a b) ha,
      State.finish_failed (c := .busWriteError) t (by simp [BusOp.failure, hok])]
    simp only [State.answered, BusOp.event, hok]
    rfl
  · rw [h, State.awaitBus_none (op := .write a b) ha]

/-- A command that flushes an array ends in the fault of PACK, or writes the packed byte (R111, R173). -/
theorem flushEnds_of_flush {i : Instr} {s s1 : State} {a : CacheArray} (h : exec i s = .next (s1.flush a)) :
    FlushEnds i s s1 a a.reg := by
  refine ⟨fun c hc => ⟨s1.k, ?_⟩, fun b hb => writeEnds_of_issue ?_⟩
  · rw [h, State.flush_error hc]
    rfl
  · rw [h, State.flush_ok hb]

/-! ### The register-level commands (R115 to R120) -/

theorem exec_setMode (s : State) : exec .setMode s = .next (s.flush .mode) := rfl

theorem exec_getMode (s : State) : exec .getMode s = .next (s.issue (.read .mode)) := rfl

theorem exec_setInversion (s : State) : exec .setInversion s = .next (s.flush .inv) := rfl

theorem exec_getInversion (s : State) : exec .getInversion s = .next (s.issue (.read .inv)) := rfl

theorem exec_setGpio (s : State) : exec .setGpio s = .next (s.flush .out) := rfl

theorem exec_getGpio (s : State) : exec .getGpio s = .next (s.issue (.read .inp)) := rfl

/-- Settles O14: SETMODE flushes MODE, which packs under the invariant. -/
theorem setModeDoesItsRule : Obligations.SetModeDoesItsRule :=
  ⟨by decide, fun s => ⟨flushEnds_of_flush (exec_setMode s), fun hs hf => hs.packs hf .mode⟩⟩

/-- Settles O15: GETMODE issues the read that refreshes MODE. -/
theorem getModeDoesItsRule : Obligations.GetModeDoesItsRule :=
  ⟨by decide, fun s => readEnds_of_issue (exec_getMode s)⟩

/-- Settles O16: SETINVERSION flushes INV, which packs under the invariant. -/
theorem setInversionDoesItsRule : Obligations.SetInversionDoesItsRule :=
  ⟨by decide, fun s => ⟨flushEnds_of_flush (exec_setInversion s), fun hs hf => hs.packs hf .inv⟩⟩

/-- Settles O17: GETINVERSION issues the read that refreshes INV. -/
theorem getInversionDoesItsRule : Obligations.GetInversionDoesItsRule :=
  ⟨by decide, fun s => readEnds_of_issue (exec_getInversion s)⟩

/-- Settles O18: SETGPIO flushes OUT, which packs under the invariant. -/
theorem setGpioDoesItsRule : Obligations.SetGpioDoesItsRule :=
  ⟨by decide, fun s => ⟨flushEnds_of_flush (exec_setGpio s), fun hs hf => hs.packs hf .out⟩⟩

/-- Settles O19: GETGPIO issues the read that refreshes INP. -/
theorem getGpioDoesItsRule : Obligations.GetGpioDoesItsRule :=
  ⟨by decide, fun s => readEnds_of_issue (exec_getGpio s)⟩

/-! ### Pack safety (R121) -/

/-- Settles O50: in IDLE the invariant asks for an accepted configuration, arrays that pack and no fault. -/
theorem resetMeetsTheInvariant : Obligations.ResetMeetsTheInvariant :=
  State.Ready.inv ⟨by decide, packs_of_reset rfl rfl rfl, rfl, .inl rfl⟩ (.inl rfl)

/-- The code of one of the two faults of PACK (R111, R172). -/
def IsPackFault (code : Byte) : Prop := code = 0x02 ∨ code = 0x03

/-- Under the policy `p` the value `v` in lane `n` is one that PACK answers with the fault `code` (R111). -/
def LaneFaults (p : NonbinaryPack) (code v : Byte) (n : Nat) : Prop :=
  (p = .fault ∧ code = 0x02 ∧ 1 < v.toNat) ∨ (p = .positional ∧ code = 0x03 ∧ 0x100 ≤ v.toNat * 2 ^ n)

/-- A lane that faults does not pack by itself. -/
theorem LaneFaults.not_lanePacks {p : NonbinaryPack} {code v : Byte} {n : Nat} (h : LaneFaults p code v n) :
    ¬LanePacks p v n := by
  rcases h with ⟨rfl, _, h⟩ | ⟨rfl, _, h⟩
  · exact Nat.not_le.2 h
  · exact Nat.not_lt.2 h

/-- A value in a lane that faults is not binary. -/
theorem LaneFaults.binary_eq_false {p : NonbinaryPack} {code v : Byte} {n : Fin 8} (h : LaneFaults p code v n.val) :
    binary v = false :=
  Bool.eq_false_iff.2 fun hb => h.not_lanePacks (lanePacks_of_binary p ((binary_iff v).1 hb) n)

/-- A fault of PACK comes from an element whose lane faults. -/
theorem pack_error_lane {p : NonbinaryPack} {a : PinArray} {c : FaultCause} (h : pack p a = .error c) :
    ∃ n : Fin 8, LaneFaults p c.code a[n] n.val := by
  cases p with
  | fault =>
    obtain rfl : c = .nonbinaryPack := pack_error_cause h
    rw [pack_fault] at h
    split at h
    case isTrue hn => exact hn.imp fun n hn => .inl ⟨rfl, rfl, hn⟩
    case isFalse => exact nomatch h
  | positional =>
    obtain rfl : c = .packOverflow := pack_error_cause h
    rw [pack_positional] at h
    split at h
    case isTrue hn => exact hn.imp fun n hn => .inr ⟨rfl, rfl, hn⟩
    case isFalse => exact nomatch h

/-- A transfer that fails raises one of the two bus faults (R63, R64). -/
theorem BusOp.cause_of_failure (op : BusOp) {d : BusDraw} {c : FaultCause} (h : op.failure d = some c) :
    c = .busReadError ∨ c = .busWriteError := by
  cases op with
  | probe => exact nomatch h
  | read use =>
    obtain ⟨_, hc⟩ : d.ok = false ∧ .busReadError = c := by simpa [BusOp.failure] using h
    exact .inl hc.symm
  | write a b =>
    obtain ⟨_, hc⟩ : d.ok = false ∧ .busWriteError = c := by simpa [BusOp.failure] using h
    exact .inr hc.symm

/-- Asking the transport raises no fault of PACK. -/
theorem State.awaitBus_not_packFault {s : State} (h0 : s.faultCode = 0x00) (op : BusOp) :
    ¬IsPackFault (s.awaitBus op).faultCode := by
  rcases ha : s.transport.ask op.txn with ⟨_ | d, tr⟩
  · rw [State.awaitBus_none ha]
    simp [IsPackFault, h0]
  · rw [State.awaitBus_some ha]
    cases hf : op.failure d with
    | none =>
      rw [State.finish_completed tr hf]
      simp [IsPackFault, State.answered, h0]
    | some c =>
      rw [State.finish_failed tr hf]
      rcases op.cause_of_failure hf with rfl | rfl <;> simp [IsPackFault, FaultCause.code]

/-- A fault of PACK that a flush raises comes from an element of the flushed array. -/
theorem State.flush_packFault {s : State} {a : CacheArray} (h0 : s.faultCode = 0x00)
    (h : IsPackFault (s.flush a).faultCode) :
    ∃ n : Fin 8, LaneFaults s.cfg.nonbinaryPack (s.flush a).faultCode (s.cached a)[n] n.val := by
  rcases pack_error_or_ok s.cfg.nonbinaryPack (s.cached a) with ⟨c, hc⟩ | ⟨b, hb⟩
  · rw [State.flush_error hc]
    exact pack_error_lane hc
  · rw [State.flush_ok hb, State.issue_eq] at h
    exact absurd h (s.awaitBus_not_packFault h0 _)

/-- The same of an array that has just been replaced: the element is one of the new contents. -/
theorem State.flush_setCached_packFault {s : State} {a : CacheArray} {v : PinArray} (h0 : s.faultCode = 0x00)
    (h : IsPackFault ((s.setCached a v).flush a).faultCode) :
    ∃ n : Fin 8, LaneFaults s.cfg.nonbinaryPack ((s.setCached a v).flush a).faultCode v[n] n.val := by
  simpa using State.flush_packFault (s := s.setCached a v) (by simpa using h0) h

/-- A lane of an array that packs does not fault. -/
theorem State.Packs.not_laneFaults {s : State} (h : s.Packs) (a : CacheArray) (n : Fin 8) (code : Byte) :
    ¬LaneFaults s.cfg.nonbinaryPack code (s.cached a)[n] n.val :=
  fun hn => hn.not_lanePacks ((pack_ok_iff _ _).1 (h a) n)

/-- A pin operand that selects an element has that element's number (R83, R140). -/
theorem toInt_of_pinIndex {pin : Byte} {i : Fin 8} (h : pinIndex pin = some i) : pin.toInt = i.val := by
  by_cases hvalid : 0 ≤ pin.toInt ∧ pin.toInt ≤ 7
  · obtain ⟨n, hn⟩ := Int.eq_ofNat_of_zero_le hvalid.1
    obtain rfl : ⟨n, by omega⟩ = i := Option.some.inj ((pinIndex_some (i := ⟨n, by omega⟩) hn).symm.trans h)
    exact hn
  · rw [pinIndex_none hvalid] at h
    exact nomatch h

/-- A fault of PACK that a per-pin set command raises comes from the value it has stored. -/
theorem State.setPin_packFault {s : State} {a : CacheArray} {pin val : Byte} {ok : Bool} (hs : s.Ready)
    (h : IsPackFault (s.setPin a pin val ok).faultCode) :
    ok = true ∧ ∃ n : Fin 8, pin.toInt = n.val ∧
      LaneFaults s.cfg.nonbinaryPack (s.setPin a pin val ok).faultCode val n.val := by
  rcases s.setPin_cases a pin val ok with he | ⟨n, hp, hok, he⟩ <;> rw [he] at h ⊢
  · simp [IsPackFault, hs.noFault] at h
  · obtain ⟨m, hm⟩ := State.flush_setCached_packFault hs.noFault h
    refine ⟨hok, n, toInt_of_pinIndex hp, ?_⟩
    by_cases hnm : n = m
    · subst hnm
      simpa using hm
    · have hother : ((s.cached a).set n.val val)[m] = (s.cached a)[m] := by simp [Fin.val_ne_of_ne hnm]
      rw [hother] at hm
      exact absurd hm (hs.packs.not_laneFaults a m _)

/-- A fault of PACK that a per-port set command raises comes from an element of its list. -/
theorem State.setPort_packFault {s : State} {a : CacheArray} {list : List Byte} (h0 : s.faultCode = 0x00)
    (h : IsPackFault (s.setPort a list).faultCode) :
    ∃ (n : Nat) (v : Byte), list[n]? = some v ∧
      LaneFaults s.cfg.nonbinaryPack (s.setPort a list).faultCode v n := by
  rcases s.setPort_cases a list with he | ⟨hlen, he⟩ <;> rw [he] at h ⊢
  · simp [IsPackFault, h0] at h
  · obtain ⟨n, hn⟩ := State.flush_setCached_packFault h0 h
    have hlt : n.val < list.length := by omega
    refine ⟨n.val, list[n.val], by simp, ?_⟩
    simpa [arrayOfList, hlt] using hn

/-- Only a command that stores what the host sends can raise a fault of PACK: the arrays pack as they are. -/
theorem storesInto_of_packFault {i : Instr} {s t : State} (hs : s.Ready) (h : exec i s = .next t)
    (hp : IsPackFault t.faultCode) : ∃ a, StoresInto i a := by
  rcases exec_returns_or_flushes i with ⟨_, op, _, _, he⟩ | ⟨_, he⟩
  · rw [he] at h
    cases h
    exact absurd hp (s.awaitBus_not_packFault hs.noFault op)
  · rcases he s with he | ⟨a, v, _, hv, he⟩ <;> rw [he] at h <;> cases h
    · simp [IsPackFault, hs.noFault] at hp
    · obtain ⟨n, hn⟩ := State.flush_setCached_packFault hs.noFault hp
      rcases hv with rfl | hv
      · exact absurd hn (hs.packs.not_laneFaults a n _)
      · exact ⟨a, hv⟩

/-- Settles O11: the invariant makes the arrays pack, so a fault of PACK comes from the value or the list just stored; a
binary value raises none. -/
theorem packSafety : Obligations.PackSafety := by
  intro s hr hf
  have hs := hr.inv.ready hf
  refine ⟨⟨hs.packs .mode, hs.packs .inv, hs.packs .out⟩, fun i t h hp => ?_⟩
  have pinFault : ∀ a p v ok, exec i s = .next (s.setPin a p v ok) →
      ok = true ∧ ∃ n : Fin 8, p.toInt = n.val ∧ LaneFaults s.cfg.nonbinaryPack t.faultCode v n.val := by
    intro a p v ok he
    cases h.symm.trans he
    exact State.setPin_packFault hs hp
  have portFault : ∀ a l, exec i s = .next (s.setPort a l) →
      ∃ (n : Nat) (v : Byte), l[n]? = some v ∧ LaneFaults s.cfg.nonbinaryPack t.faultCode v n := by
    intro a l he
    cases h.symm.trans he
    exact State.setPort_packFault hs.noFault hp
  obtain ⟨_ | _ | _, ⟨p, v, rfl⟩ | ⟨l, rfl⟩⟩ := storesInto_of_packFault hs h hp
  case mode.inl =>
    obtain ⟨hok, n, _, hn⟩ := pinFault .mode p v _ rfl
    exact absurd hok (by simp [hn.binary_eq_false])
  case inv.inl =>
    obtain ⟨hok, n, hpin, hn⟩ := pinFault .inv p v _ rfl
    have hunchecked : s.cfg.invertPinValidates = false := by simpa [hn.binary_eq_false] using hok
    exact ⟨n, v, hn, .inr ⟨p, hpin, n.isLt, .inr ⟨rfl, hunchecked⟩⟩⟩
  case out.inl =>
    obtain ⟨_, n, hpin, hn⟩ := pinFault .out p v _ rfl
    exact ⟨n, v, hn, .inr ⟨p, hpin, n.isLt, .inl rfl⟩⟩
  case mode.inr =>
    obtain ⟨n, v, hv, hn⟩ := portFault .mode l rfl
    exact ⟨n, v, hn, .inl ⟨l, hv, .inl rfl⟩⟩
  case inv.inr =>
    obtain ⟨n, v, hv, hn⟩ := portFault .inv l rfl
    exact ⟨n, v, hn, .inl ⟨l, hv, .inr (.inl rfl)⟩⟩
  case out.inr =>
    obtain ⟨n, v, hv, hn⟩ := portFault .out l rfl
    exact ⟨n, v, hn, .inl ⟨l, hv, .inr (.inr rfl)⟩⟩

end Sys2Proof.Machine
end

-- Proofs: the pin API
section
/-!
PROOFS. The pin API (spec/42_pin_api.md R143 to R152): the words of its commands, one rule for every per-pin set command and
one for every per-port one, the two input commands, and what a flush of the whole cached array makes visible.
-/

namespace Sys2Proof

/-! ### The words of the pin API (R81, R82, R86) -/

/-- A command without a list is one word, of its opcode, pin and value. -/
theorem encode_of_noList {i : Instr} (h : i.listOperand = []) :
    encode i = [i.opcode.code.setWidth 32 ||| i.pinOperand.setWidth 32 <<< 8 ||| i.valOperand.setWidth 32 <<< 16] := by
  simp [encode, Instr.header, headerWord, h]

/-- A per-port command of an array starts with the header of its opcode with LEN 8. -/
theorem encode_head?_of_format_l {op : Opcode} {w : Word} (hf : op.format = .l) (hw : headerWord op.code 0 0 8 = w)
    (a : PinArray) : (encode (op.command 0 0 a.toList)).head? = some w := by
  simp [encode, Instr.header, Opcode.opcode_command, Opcode.pinOperand_command, Opcode.valOperand_command,
    Opcode.listOperand_command, hf, ← hw]

end Sys2Proof

namespace Sys2Proof.Machine

/-! ### The meanings as shared operations -/

theorem exec_pinMode (pin val : Byte) (s : State) :
    exec (.pinMode pin val) s = .next (s.setPin .mode pin val (binary val)) := rfl

theorem exec_pinModePort (list : List Byte) (s : State) : exec (.pinModePort list) s = .next (s.setPort .mode list) := rfl

theorem exec_invertPin (pin val : Byte) (s : State) :
    exec (.invertPin pin val) s = .next (s.setPin .inv pin val (!s.cfg.invertPinValidates || binary val)) := rfl

theorem exec_invertPinPort (list : List Byte) (s : State) :
    exec (.invertPinPort list) s = .next (s.setPort .inv list) := rfl

theorem exec_digitalWrite (pin val : Byte) (s : State) :
    exec (.digitalWrite pin val) s = .next (s.setPin .out pin val true) := rfl

theorem exec_digitalWritePort (list : List Byte) (s : State) :
    exec (.digitalWritePort list) s = .next (s.setPort .out list) := rfl

theorem exec_digitalRead_valid {pin : Byte} {n : Fin 8} (h : pin.toInt = n.val) (s : State) :
    exec (.digitalRead pin) s = .next (s.issue (.read (.inpPin n))) := by
  simp [exec, execDigitalRead, pinIndex_some h]

theorem exec_digitalRead_invalid {pin : Byte} (h : ¬(0 ≤ pin.toInt ∧ pin.toInt ≤ 7)) (s : State) :
    exec (.digitalRead pin) s = .next s.noop := by
  simp [exec, execDigitalRead, pinIndex_none h]

theorem exec_digitalReadPort (s : State) : exec .digitalReadPort s = .next (s.issue (.read .inpPort)) := rfl

theorem isNoop_of_noop {i : Instr} {s : State} (h : exec i s = .next s.noop) : IsNoop i s := h

/-- The value check of INVERTPIN asks for a binary value only when P_INVERTPIN_VALIDATES is true (R145). -/
theorem invertPin_valueCheck_iff (validates : Bool) (val : Byte) :
    (!validates || binary val) = true ↔ validates = false ∨ val = 0 ∨ val = 1 := by
  rw [Bool.or_eq_true, binary_iff, Bool.not_eq_true']

/-! ### Lanes that fault and lanes that pack (R111) -/

/-- An element whose lane faults makes PACK raise that fault. -/
theorem pack_of_laneFaults {p : NonbinaryPack} {code : Byte} {v : PinArray} {n : Fin 8}
    (h : LaneFaults p code v[n] n.val) : ∃ c, pack p v = .error c ∧ c.code = code := by
  rcases h with ⟨rfl, rfl, h⟩ | ⟨rfl, rfl, h⟩
  · exact ⟨.nonbinaryPack, by rw [pack_fault, if_pos ⟨n, h⟩], rfl⟩
  · exact ⟨.packOverflow, by rw [pack_positional, if_pos ⟨n, h⟩], rfl⟩

/-- A command that flushes an array with a faulting lane ends in that lane's fault. -/
theorem FlushEnds.endsInFault {i : Instr} {s s1 : State} {a : CacheArray} {reg : RemoteReg} {code : Byte} {n : Fin 8}
    (h : FlushEnds i s s1 a reg) (hn : LaneFaults s1.cfg.nonbinaryPack code (s1.cached a)[n] n.val) :
    EndsInFault i s s1 code := by
  obtain ⟨c, hc, rfl⟩ := pack_of_laneFaults hn
  exact h.1 c hc

/-- The values that pack in their lane are the binary ones, and under `positional` those that stay below bit 8. -/
theorem lanePacks_of_fits {p : NonbinaryPack} {v : Byte} {n : Fin 8}
    (h : v.toNat ≤ 1 ∨ (p = .positional ∧ v.toNat * 2 ^ n.val < 0x100)) : LanePacks p v n.val := by
  rcases h with h | ⟨rfl, h⟩
  · exact lanePacks_of_binary p ((byte_eq_zero_or_one_iff v).2 h) n
  · exact h

/-- Under the invariant and outside FAULT, a cache array still packs with a value stored that packs in its lane (R121). -/
theorem State.Inv.pack_set {s : State} (hs : s.Inv) (hf : s.fsm ≠ .fault) (a : CacheArray) {n : Fin 8} {val : Byte}
    (hv : LanePacks s.cfg.nonbinaryPack val n.val) :
    ∃ b, pack s.cfg.nonbinaryPack ((s.cached a).set n.val val) = .ok b :=
  pack_ok_set (hs.packs hf a) n val hv

/-! ### The per-pin set commands (R143, R145, R147) -/

section
variable {i : Instr} {s : State} {a : CacheArray} {pin val : Byte} {ok : Bool}

/-- A per-pin set command is a no-op when its value check or its pin check fails (R170). -/
theorem isNoop_of_setPin (h : exec i s = .next (s.setPin a pin val ok))
    (hbad : ¬(ok = true ∧ 0 ≤ pin.toInt ∧ pin.toInt ≤ 7)) : IsNoop i s := by
  apply isNoop_of_noop
  rw [h]
  cases ok with
  | false => rw [State.setPin_invalidValue]
  | true => rw [State.setPin_invalidPin (pinIndex_none fun hpin => hbad ⟨rfl, hpin⟩)]

/-- Else it stores the one element and flushes the whole array (R151). -/
theorem flushEnds_of_setPin (h : exec i s = .next (s.setPin a pin val ok)) (hok : ok = true) {n : Fin 8}
    (hpin : pin.toInt = n.val) : FlushEnds i s (s.setCached a ((s.cached a).set n.val val)) a a.reg := by
  subst hok
  exact flushEnds_of_flush (h.trans (congrArg _ (State.setPin_valid (pinIndex_some hpin))))

/-- When the value stored does not pack in its lane, the flush faults, the element stored. -/
theorem endsInFault_of_setPin (h : exec i s = .next (s.setPin a pin val ok)) (hok : ok = true) {n : Fin 8}
    (hpin : pin.toInt = n.val) {code : Byte} (hn : LaneFaults s.cfg.nonbinaryPack code val n.val) :
    EndsInFault i s (s.setCached a ((s.cached a).set n.val val)) code :=
  (flushEnds_of_setPin h hok hpin).endsInFault (n := n) (by simpa using hn)

/-- What a per-pin set command does with a value that passed its check, whether the value packs or not. -/
theorem setPin_rule (h : exec i s = .next (s.setPin a pin val ok)) (hok : ok = true) {n : Fin 8}
    (hpin : pin.toInt = n.val) :
    FlushEnds i s (s.setCached a ((s.cached a).set n.val val)) a a.reg ∧
    (s.Inv → s.fsm ≠ .fault → val.toNat ≤ 1 ∨ (s.cfg.nonbinaryPack = .positional ∧ val.toNat * 2 ^ n.val < 0x100) →
      ∃ b, pack s.cfg.nonbinaryPack ((s.cached a).set n.val val) = .ok b) ∧
    (s.cfg.nonbinaryPack = .fault → 1 < val.toNat →
      EndsInFault i s (s.setCached a ((s.cached a).set n.val val)) 0x02) ∧
    (s.cfg.nonbinaryPack = .positional → 0x100 ≤ val.toNat * 2 ^ n.val →
      EndsInFault i s (s.setCached a ((s.cached a).set n.val val)) 0x03) :=
  ⟨flushEnds_of_setPin h hok hpin, fun hs hf hfits => hs.pack_set hf a (lanePacks_of_fits hfits),
    fun hp hv => endsInFault_of_setPin h hok hpin (.inl ⟨hp, rfl, hv⟩),
    fun hp hv => endsInFault_of_setPin h hok hpin (.inr ⟨hp, rfl, hv⟩)⟩

end

/-! ### The per-port set commands (R144, R146, R148) -/

section
variable {i : Instr} {s : State} {a : CacheArray}

/-- A per-port set command is a no-op when its list has not 8 elements (R142, R170). -/
theorem isNoop_of_setPort {list : List Byte} (h : exec i s = .next (s.setPort a list)) (hlen : list.length ≠ 8) :
    IsNoop i s := by
  apply isNoop_of_noop
  rw [h, State.setPort_invalid (Bool.eq_false_iff.2 (mt (listOk_iff list).1 hlen))]

/-- With 8 elements it replaces the array and flushes it. -/
theorem flushEnds_of_setPort {v : PinArray} (h : exec i s = .next (s.setPort a v.toList)) :
    FlushEnds i s (s.setCached a v) a a.reg := by
  rw [State.setPort_valid ((listOk_iff _).2 v.length_toList), arrayOfList_toList] at h
  exact flushEnds_of_flush h

/-- When an element does not pack in its lane, the flush faults, the array replaced. -/
theorem endsInFault_of_setPort {v : PinArray} (h : exec i s = .next (s.setPort a v.toList)) {code : Byte} {n : Fin 8}
    (hn : LaneFaults s.cfg.nonbinaryPack code v[n] n.val) : EndsInFault i s (s.setCached a v) code :=
  (flushEnds_of_setPort h).endsInFault (n := n) (by simpa using hn)

/-- What a per-port set command does with every list, whether the elements pack or not. -/
theorem setPort_rule {cmd : List Byte → Instr} (h : ∀ list, exec (cmd list) s = .next (s.setPort a list)) :
    (∀ list : List Byte, list.length ≠ 8 → IsNoop (cmd list) s) ∧
    ∀ v : PinArray, FlushEnds (cmd v.toList) s (s.setCached a v) a a.reg ∧
      (s.cfg.nonbinaryPack = .fault → (∃ n : Fin 8, 1 < v[n].toNat) →
        EndsInFault (cmd v.toList) s (s.setCached a v) 0x02) ∧
      (s.cfg.nonbinaryPack = .positional → (∃ n : Fin 8, 0x100 ≤ v[n].toNat * 2 ^ n.val) →
        EndsInFault (cmd v.toList) s (s.setCached a v) 0x03) :=
  ⟨fun list => isNoop_of_setPort (h list), fun v => ⟨flushEnds_of_setPort (h v.toList),
    fun hp ⟨_, hn⟩ => endsInFault_of_setPort (h v.toList) (.inl ⟨hp, rfl, hn⟩),
    fun hp ⟨_, hn⟩ => endsInFault_of_setPort (h v.toList) (.inr ⟨hp, rfl, hn⟩)⟩⟩

end

/-! ### The obligations, command by command -/

/-- Settles O20: PINMODE stores into MODE; a binary value packs in every lane. -/
theorem pinModeDoesItsRule : Obligations.PinModeDoesItsRule := by
  refine ⟨by decide, fun pin val => encode_of_noList (i := .pinMode pin val) rfl,
    fun s pin val => ⟨fun hbad => ?_, fun n hpin hval => ⟨?_, fun hs hf => ?_⟩⟩⟩
  · exact isNoop_of_setPin (exec_pinMode pin val s) (by rwa [binary_iff])
  · exact flushEnds_of_setPin (exec_pinMode pin val s) ((binary_iff val).2 hval) hpin
  · exact hs.pack_set hf .mode (lanePacks_of_binary _ hval n)

/-- Settles O21: PINMODEPORT replaces MODE. -/
theorem pinModePortDoesItsRule : Obligations.PinModePortDoesItsRule :=
  ⟨encode_head?_of_format_l (op := .pinModePort) rfl (by decide),
    fun s => setPort_rule fun list => exec_pinModePort list s⟩

/-- Settles O22: INVERTPIN stores into INV; unchecked, the value may be one that faults in its lane. -/
theorem invertPinDoesItsRule : Obligations.InvertPinDoesItsRule := by
  refine ⟨by decide, fun pin val => encode_of_noList (i := .invertPin pin val) rfl,
    fun s pin val => ⟨fun hbad => ?_, fun n hpin hval => ?_⟩⟩
  · exact isNoop_of_setPin (exec_invertPin pin val s) (by rwa [invertPin_valueCheck_iff])
  · exact setPin_rule (exec_invertPin pin val s) ((invertPin_valueCheck_iff _ val).2 hval) hpin

/-- Settles O23: INVERTPINPORT replaces INV. -/
theorem invertPinPortDoesItsRule : Obligations.InvertPinPortDoesItsRule :=
  ⟨encode_head?_of_format_l (op := .invertPinPort) rfl (by decide),
    fun s => setPort_rule fun list => exec_invertPinPort list s⟩

/-- Settles O24: DIGITALWRITE stores into OUT whatever the value, which may be one that faults in its lane. -/
theorem digitalWriteDoesItsRule : Obligations.DigitalWriteDoesItsRule := by
  refine ⟨by decide, fun pin val => encode_of_noList (i := .digitalWrite pin val) rfl,
    fun s pin val => ⟨fun hbad => ?_, fun n hpin => ?_⟩⟩
  · exact isNoop_of_setPin (exec_digitalWrite pin val s) fun hvalid => hbad hvalid.2
  · exact setPin_rule (exec_digitalWrite pin val s) rfl hpin

/-- Settles O25: DIGITALWRITEPORT replaces OUT. -/
theorem digitalWritePortDoesItsRule : Obligations.DigitalWritePortDoesItsRule :=
  ⟨encode_head?_of_format_l (op := .digitalWritePort) rfl (by decide),
    fun s => setPort_rule fun list => exec_digitalWritePort list s⟩

/-- Settles O26: an invalid pin is a no-op; a valid one issues the read of its own element. -/
theorem digitalReadDoesItsRule : Obligations.DigitalReadDoesItsRule := by
  refine ⟨by decide, by decide, fun pin => ?_, fun s pin => ⟨fun hbad => ?_, fun n hpin => ?_⟩⟩
  · simpa [Instr.opcode, Opcode.code, Instr.pinOperand, Instr.valOperand]
      using encode_of_noList (i := .digitalRead pin) rfl
  · exact isNoop_of_noop (exec_digitalRead_invalid hbad s)
  · exact readEnds_of_issue (exec_digitalRead_valid hpin s)

/-- Settles O27: DIGITALREADPORT issues the read that refreshes INP and returns its byte. -/
theorem digitalReadPortDoesItsRule : Obligations.DigitalReadPortDoesItsRule :=
  ⟨by decide, fun s => readEnds_of_issue (exec_digitalReadPort s)⟩

/-! ### The whole cached array is written (R151, R152, R194) -/

/-- One element of an array is replaced, the others stay. -/
theorem getElem_set_fin (v : PinArray) (n j : Fin 8) (val : Byte) :
    (v.set n.val val)[j] = if j = n then val else v[j] := by
  simp [Vector.getElem_set, Fin.ext_iff, eq_comm]

/-- Of a binary array in which a binary value has been stored, PACK answers the byte with that value as its bit and the
other elements as the other bits, under either policy. -/
theorem pack_set_of_binary (p : NonbinaryPack) {v : PinArray} {val : Byte} (n : Fin 8)
    (hv : ∀ j : Fin 8, v[j] = 0 ∨ v[j] = 1) (hval : val = 0 ∨ val = 1) :
    ∃ b, pack p (v.set n.val val) = .ok b ∧
      ∀ j : Fin 8, b.getLsbD j.val = if j = n then val.getLsbD 0 else v[j].getLsbD 0 := by
  have hbin : ∀ j : Fin 8, (v.set n.val val)[j] = 0 ∨ (v.set n.val val)[j] = 1 := by
    intro j
    rw [getElem_set_fin]
    split
    case isTrue => exact hval
    case isFalse => exact hv j
  obtain ⟨b, hb, hbits⟩ := pack_of_binary p hbin
  refine ⟨b, hb, fun j => ?_⟩
  rw [hbits, getElem_set_fin, apply_ite fun e : Byte => e.getLsbD 0]

/-- Of the three ends of a write only the completed one is in IDLE, and it has recorded the write. -/
theorem WriteEnds.hist_of_idle {i : Instr} {s s1 t : State} {a : CacheArray} {reg : RemoteReg} {b : Byte}
    (h : WriteEnds i s s1 a reg b) (he : exec i s = .next t) (hf : t.fsm = .idle) :
    t.hist = s1.hist ++ [.write s1.cfg.addr reg b] := by
  obtain ⟨hdone, hfailed, hwait⟩ := h
  rcases ha : s1.transport.ask (.write reg b) with ⟨_ | d, tr⟩
  · cases he.symm.trans (hwait tr ha)
    exact nomatch hf
  · cases hd : d.ok with
    | true =>
      cases he.symm.trans (hdone d tr ha hd)
      rfl
    | false =>
      obtain ⟨k, hk⟩ := hfailed d tr ha hd
      cases he.symm.trans hk
      exact nomatch hf

/-- A per-pin set command that stores a binary value into a binary array writes that array's packed byte. -/
theorem writeEnds_of_setPin {i : Instr} {s : State} {a : CacheArray} {pin val : Byte} {ok : Bool} {n : Fin 8}
    (h : exec i s = .next (s.setPin a pin val ok)) (hok : ok = true) (hpin : pin.toInt = n.val)
    (ha : ∀ j : Fin 8, (s.cached a)[j] = 0 ∨ (s.cached a)[j] = 1) (hval : val = 0 ∨ val = 1) :
    ∃ b, WriteEnds i s (s.setCached a ((s.cached a).set n.val val)) a a.reg b ∧
      ∀ j : Fin 8, b.getLsbD j.val = if j = n then val.getLsbD 0 else (s.cached a)[j].getLsbD 0 := by
  obtain ⟨b, hb, hbits⟩ := pack_set_of_binary s.cfg.nonbinaryPack n ha hval
  exact ⟨b, (flushEnds_of_setPin h hok hpin).2 b (by simpa using hb), hbits⟩

/-- Settles O34: with a binary value every per-pin set command passes its value check, and ended in IDLE it has written
the packed array. -/
theorem perPinSetsWriteTheWholeCachedArray : Obligations.PerPinSetsWriteTheWholeCachedArray := by
  intro a s t pin val n ha hval hpin he hf
  have hbin : binary val = true := (binary_iff val).2 hval
  have hset : ∀ {i : Instr} {ok : Bool}, exec i s = .next (s.setPin a pin val ok) → ok = true → exec i s = .next t →
      ∃ b : Byte, t.hist = s.hist ++ [.write s.cfg.addr a.reg b] ∧
        ∀ j : Fin 8, b.getLsbD j.val = if j = n then val.getLsbD 0 else (s.cached a)[j].getLsbD 0 := by
    intro i ok h hok hit
    obtain ⟨b, hwrite, hbits⟩ := writeEnds_of_setPin h hok hpin ha hval
    exact ⟨b, by simpa using hwrite.hist_of_idle hit hf, hbits⟩
  cases a with
  | mode => exact hset (exec_pinMode pin val s) hbin he
  | inv => exact hset (exec_invertPin pin val s) (by simp [hbin]) he
  | out => exact hset (exec_digitalWrite pin val s) rfl he

/-- On the reference device a write completes at once and is in the device's register (R64, R76). -/
theorem WriteEnds.on_reference {i : Instr} {s s1 : State} {a : CacheArray} {reg : RemoteReg} {b : Byte} {dev : RefDevice}
    (h : WriteEnds i s s1 a reg b) (hdev : s1.transport = .reference dev) :
    exec i s = .next { s1 with
      transport := .reference (dev.writeReg reg b), hist := s1.hist ++ [.write s1.cfg.addr reg b],
      rsp := 0x0000, fsm := .idle, k := s1.k + 1 } :=
  h.1 ⟨true, 0, 1⟩ _ (by rw [hdev]; rfl) rfl

/-- On the reference device a read completes at once with the byte of the device's register (R63, R76). -/
theorem ReadEnds.on_reference {i : Instr} {s : State} {use : ReadUse} {reg : RemoteReg} {upd : Byte → State}
    {data : Byte → Byte} {dev : RefDevice} (h : ReadEnds i s use reg upd data) (hdev : s.transport = .reference dev) :
    exec i s = .next { upd (dev.readReg reg) with
      transport := .reference dev, hist := s.hist ++ [.read s.cfg.addr reg (dev.readReg reg)],
      rsp := 0x0100 ||| (data (dev.readReg reg)).setWidth 16, fsm := .idle, k := s.k + 1 } :=
  h.1 ⟨true, dev.readReg reg, 1⟩ _ (by rw [hdev]; rfl) rfl

theorem toInt_ofNat_fin (p : Fin 8) : (BitVec.ofNat 8 p.val).toInt = p.val := by
  revert p
  decide

/-- Settles O36: PINMODE writes the packed MODE to CONFIGURATION of the device, and GETMODE reads that byte back. -/
theorem pinModeThenGetModeReturnsTheCachedModes : Obligations.PinModeThenGetModeReturnsTheCachedModes := by
  intro s dev p m hdev hmode hm
  obtain ⟨b, hwrite, hbits⟩ := writeEnds_of_setPin (exec_pinMode _ m s) ((binary_iff m).2 hm)
    (toInt_ofNat_fin p) hmode hm
  have hwritten := hwrite.on_reference (dev := dev) (by simpa using hdev)
  exact ⟨_, _, b, hwritten, (readEnds_of_issue (exec_getMode _)).on_reference rfl, rfl, rfl, hbits⟩

end Sys2Proof.Machine
end

-- Proofs: the exceptions
section
/-!
PROOFS. The exceptions (spec/60_exceptions.md R170 to R176): which commands are no-ops, what a fault leaves of the cache and
of the bus, and that FAULT is left by reset alone.
-/

namespace Sys2Proof.Machine

/-! ### Invalid arguments (R170) -/

/-- Settles O28: an invalid pin, a value that fails its check, or a list that has not 8 elements. -/
theorem invalidArgumentsAreNoops : Obligations.InvalidArgumentsAreNoops := by
  intro s pin val list
  refine ⟨fun hpin => ?_, fun hval => ?_, fun hlen => ?_⟩
  · have hbad : ¬(0 ≤ pin.toInt ∧ pin.toInt ≤ 7) := by omega
    exact ⟨isNoop_of_setPin (exec_pinMode pin val s) fun hvalid => hbad hvalid.2,
      isNoop_of_setPin (exec_invertPin pin val s) fun hvalid => hbad hvalid.2,
      isNoop_of_setPin (exec_digitalWrite pin val s) fun hvalid => hbad hvalid.2,
      isNoop_of_noop (exec_digitalRead_invalid hbad s)⟩
  · have hbad : ¬(val = 0 ∨ val = 1) := by
      rw [byte_eq_zero_or_one_iff]
      omega
    refine ⟨isNoop_of_setPin (exec_pinMode pin val s) fun hvalid => hbad ((binary_iff val).1 hvalid.1), fun hchecks => ?_⟩
    refine isNoop_of_setPin (exec_invertPin pin val s) fun hvalid => ?_
    rcases (invertPin_valueCheck_iff _ val).1 hvalid.1 with hunchecked | hbinary
    · rw [hchecks] at hunchecked
      exact nomatch hunchecked
    · exact hbad hbinary
  · exact ⟨isNoop_of_setPort (exec_pinModePort list s) hlen, isNoop_of_setPort (exec_invertPinPort list s) hlen,
      isNoop_of_setPort (exec_digitalWritePort list s) hlen⟩

/-! ### What a fault leaves (R171, R173, R174) -/

/-- Asking the transport ends in FAULT only by a failed read or a failed write, which is recorded. -/
theorem State.awaitBus_fault {s : State} {op : BusOp} (hf : (s.awaitBus op).fsm = .fault) :
    (∃ use tr, op = .read use ∧ s.awaitBus op =
      { s with transport := tr, hist := s.hist ++ [BusEvent.readFail s.cfg.addr use.reg] }.raiseFault .busReadError) ∨
    ∃ a b tr, op = .write a b ∧ s.awaitBus op =
      { s with transport := tr, hist := s.hist ++ [BusEvent.writeFail s.cfg.addr a.reg b] }.raiseFault .busWriteError := by
  rcases ha : s.transport.ask op.txn with ⟨_ | d, tr⟩
  · rw [State.awaitBus_none ha] at hf
    exact nomatch hf
  · rw [State.awaitBus_some ha] at hf ⊢
    cases hd : op.failure d with
    | none =>
      rw [State.finish_completed tr hd] at hf
      exact nomatch hf
    | some c =>
      rw [State.finish_failed tr hd]
      cases op with
      | probe => exact nomatch hd
      | read use =>
        obtain ⟨hok, rfl⟩ : d.ok = false ∧ .busReadError = c := by simpa [BusOp.failure] using hd
        exact .inl ⟨use, tr, rfl, by simp [State.answered, BusOp.event, hok]⟩
      | write a b =>
        obtain ⟨hok, rfl⟩ : d.ok = false ∧ .busWriteError = c := by simpa [BusOp.failure] using hd
        exact .inr ⟨a, b, tr, rfl, by simp [State.answered, BusOp.event, hok]⟩

/-- A flush ends in FAULT only by a fault of PACK, with no transaction made, or by the failed write of the packed byte. -/
theorem State.flush_fault {s : State} {a : CacheArray} (hf : (s.flush a).fsm = .fault) :
    (∃ c, pack s.cfg.nonbinaryPack (s.cached a) = .error c ∧ s.flush a = s.raiseFault c) ∨
    ∃ b tr, pack s.cfg.nonbinaryPack (s.cached a) = .ok b ∧ s.flush a =
      { s with transport := tr, hist := s.hist ++ [BusEvent.writeFail s.cfg.addr a.reg b] }.raiseFault .busWriteError := by
  rcases pack_error_or_ok s.cfg.nonbinaryPack (s.cached a) with ⟨c, hc⟩ | ⟨b, hb⟩
  · exact .inl ⟨c, hc, State.flush_error hc⟩
  · rw [State.flush_ok hb, State.issue_eq] at hf ⊢
    rcases State.awaitBus_fault hf with ⟨_, _, hop, _⟩ | ⟨_, _, tr, hop, he⟩
    · exact nomatch hop
    · cases hop
      exact .inr ⟨b, tr, hb, he⟩

/-- A failed transaction changes no array. -/
theorem State.issue_fault_arrays {s : State} {op : BusOp} (hf : (s.issue op).fsm = .fault) :
    (s.issue op).inp = s.inp ∧ (s.issue op).mode = s.mode ∧ (s.issue op).inv = s.inv ∧ (s.issue op).out = s.out := by
  rw [State.issue_eq] at hf ⊢
  rcases State.awaitBus_fault hf with ⟨_, _, _, he⟩ | ⟨_, _, _, _, he⟩ <;> rw [he] <;> exact ⟨rfl, rfl, rfl, rfl⟩

/-- The flush of an array that has just been replaced leaves it replaced and every other array as it was. -/
theorem State.flush_setCached_arrays (s : State) (a : CacheArray) (v : PinArray) :
    ((s.setCached a v).flush a).cached a = v ∧
    (∀ b, b ≠ a → ((s.setCached a v).flush a).cached b = s.cached b) ∧ ((s.setCached a v).flush a).inp = s.inp := by
  obtain ⟨hm, hi, ho, hp⟩ := (s.setCached a v).flush_arrays a
  refine ⟨?_, fun b hb => ?_, by simpa using hp⟩ <;> rw [State.cached_congr hm hi ho]
  · exact State.cached_setCached_self s a v
  · exact State.cached_setCached_ne s v hb

/-- A per-pin set command that ends in FAULT has stored its one element. -/
theorem State.setPin_fault {s : State} {a : CacheArray} {pin val : Byte} {ok : Bool}
    (hf : (s.setPin a pin val ok).fsm = .fault) : ∃ n : Fin 8, pin.toInt = n.val ∧
      s.setPin a pin val ok = (s.setCached a ((s.cached a).set n.val val)).flush a := by
  rcases s.setPin_cases a pin val ok with he | ⟨n, hn, _, he⟩
  · rw [he] at hf
    exact nomatch hf
  · exact ⟨n, toInt_of_pinIndex hn, he⟩

/-- A list of 8 elements is the list of its array. -/
theorem toList_arrayOfList {list : List Byte} (h : list.length = 8) : (arrayOfList list).toList = list :=
  congrArg Vector.toList (arrayOfList_toList ⟨list.toArray, h⟩)

/-- A per-port set command that ends in FAULT has stored its list. -/
theorem State.setPort_fault {s : State} {a : CacheArray} {list : List Byte} (hf : (s.setPort a list).fsm = .fault) :
    ∃ v : PinArray, v.toList = list ∧ s.setPort a list = (s.setCached a v).flush a := by
  rcases s.setPort_cases a list with he | ⟨hlen, he⟩
  · rw [he] at hf
    exact nomatch hf
  · exact ⟨arrayOfList list, toList_arrayOfList hlen, he⟩

/-- A command that ends in FAULT has made its cache update and changed the arrays in no other way (R173 step 4, R174). -/
theorem storedOnly_of_fault {i : Instr} {s t : State} (h : exec i s = .next t) (hf : t.fsm = .fault) :
    StoredOnly i s t := by
  have pin : ∀ a p v ok, exec i s = .next (s.setPin a p v ok) →
      (∃ n : Fin 8, p.toInt = n.val ∧ t.cached a = (s.cached a).set n.val v) ∧
      (∀ b, b ≠ a → t.cached b = s.cached b) ∧ t.inp = s.inp := by
    intro a p v ok he
    cases h.symm.trans he
    obtain ⟨n, hn, he⟩ := State.setPin_fault hf
    obtain ⟨hself, hother, hinp⟩ := s.flush_setCached_arrays a ((s.cached a).set n.val v)
    rw [he]
    exact ⟨⟨n, hn, hself⟩, hother, hinp⟩
  have port : ∀ a l, exec i s = .next (s.setPort a l) →
      (t.cached a).toList = l ∧ (∀ b, b ≠ a → t.cached b = s.cached b) ∧ t.inp = s.inp := by
    intro a l he
    cases h.symm.trans he
    obtain ⟨v, hv, he⟩ := State.setPort_fault hf
    obtain ⟨hself, hother, hinp⟩ := s.flush_setCached_arrays a v
    rw [he]
    exact ⟨by rwa [hself], hother, hinp⟩
  have flushed : ∀ a, exec i s = .next (s.flush a) →
      t.inp = s.inp ∧ t.mode = s.mode ∧ t.inv = s.inv ∧ t.out = s.out := by
    intro a he
    cases h.symm.trans he
    obtain ⟨hm, hi, ho, hp⟩ := s.flush_arrays a
    exact ⟨hp, hm, hi, ho⟩
  have issued : ∀ op, exec i s = .next (s.issue op) →
      t.inp = s.inp ∧ t.mode = s.mode ∧ t.inv = s.inv ∧ t.out = s.out := by
    intro op he
    cases h.symm.trans he
    exact State.issue_fault_arrays hf
  cases i with
  | isConnected | beginCmd => exact issued .probe rfl
  | getMode => exact issued (.read .mode) rfl
  | getInversion => exact issued (.read .inv) rfl
  | getGpio => exact issued (.read .inp) rfl
  | digitalReadPort => exact issued (.read .inpPort) rfl
  | digitalRead p =>
    cases hp : pinIndex p with
    | some n => exact issued (.read (.inpPin n)) (exec_digitalRead_valid (toInt_of_pinIndex hp) s)
    | none =>
      have he : exec (.digitalRead p) s = .next s.noop := by simp [exec, execDigitalRead, hp]
      cases h.symm.trans he
      exact nomatch hf
  | setMode => exact flushed .mode rfl
  | setInversion => exact flushed .inv rfl
  | setGpio => exact flushed .out rfl
  | pinMode p v =>
    obtain ⟨hself, hother, hinp⟩ := pin .mode p v _ rfl
    exact ⟨hinp, hself, hother .inv nofun, hother .out nofun⟩
  | invertPin p v =>
    obtain ⟨hself, hother, hinp⟩ := pin .inv p v _ rfl
    exact ⟨hinp, hself, hother .mode nofun, hother .out nofun⟩
  | digitalWrite p v =>
    obtain ⟨hself, hother, hinp⟩ := pin .out p v _ rfl
    exact ⟨hinp, hself, hother .mode nofun, hother .inv nofun⟩
  | pinModePort l =>
    obtain ⟨hself, hother, hinp⟩ := port .mode l rfl
    exact ⟨hinp, hself, hother .inv nofun, hother .out nofun⟩
  | invertPinPort l =>
    obtain ⟨hself, hother, hinp⟩ := port .inv l rfl
    exact ⟨hinp, hself, hother .mode nofun, hother .out nofun⟩
  | digitalWritePort l =>
    obtain ⟨hself, hother, hinp⟩ := port .out l rfl
    exact ⟨hinp, hself, hother .mode nofun, hother .inv nofun⟩

/-- PACK raises one of its two faults (R111, R172). -/
theorem isPackFault_of_pack {p : NonbinaryPack} {a : PinArray} {c : FaultCause} (h : pack p a = .error c) :
    IsPackFault c.code := by
  cases p with
  | fault => exact .inl (congrArg FaultCause.code (pack_error_cause h))
  | positional => exact .inr (congrArg FaultCause.code (pack_error_cause h))

/-- Settles O33: the arrays are those of `storedOnly_of_fault`; a read faults in its transaction, and a flush in PACK or in
its write, each with the array as it has been stored. -/
theorem faultsArePrecise : Obligations.FaultsArePrecise := by
  intro i s t h hf
  refine ⟨storedOnly_of_fault h hf, ?_⟩
  rcases exec_cases i s with he | ⟨op, hop, hw, he⟩ | ⟨a, v, ha, he⟩ <;> cases h.symm.trans he
  · exact nomatch hf
  · rw [State.issue_eq] at hf ⊢
    rcases State.awaitBus_fault hf with ⟨use, tr, rfl, ht⟩ | ⟨a, b, _, rfl, _⟩
    · rw [ht]
      exact .inr (.inr ⟨rfl, use.reg, hop.symm, rfl, rfl, rfl, rfl, rfl⟩)
    · exact absurd rfl (hw a b)
  · obtain ⟨hself, _, _⟩ := s.flush_setCached_arrays a v
    rcases State.flush_fault hf with ⟨c, hc, ht⟩ | ⟨b, tr, hb, ht⟩ <;> rw [ht] at hself ⊢
    · refine .inl ⟨isPackFault_of_pack hc, by simp, by simp, a, fun b hb => ?_, ha⟩
      rw [State.setCached_cfg, State.cached_setCached_self, ← hself, hb] at hc
      exact nomatch hc
    · rw [State.setCached_cfg, State.cached_setCached_self] at hb
      exact .inr (.inl ⟨rfl, a, b, ha, by rwa [hself], by simp⟩)

/-! ### FAULT (R175, R176) -/

/-- With no reset asked for, a step leaves FAULT exactly as it is. -/
theorem step_of_fault {s : State} (hc : configRefusal s.cfg = none) (hr : s.resetReq = none) (hf : s.fsm = .fault) :
    step s = .next s := by
  rw [step_of_running hc hr, fetchByFsm_fault hf, Fetched.outcome_done]

/-- Settles O44: `step_of_fault`; FAULT is not the IDLE of a normal end. -/
theorem faultStateIsQuiescent : Obligations.FaultStateIsQuiescent := by
  refine fun s hc hr hf => ⟨step_of_fault hc hr hf, hf, fun ⟨hidle, _⟩ => ?_⟩
  rw [hf] at hidle
  exact nomatch hidle

/-- Settles O45: without a request FAULT is kept, and a request that goes on sets the reset values. -/
theorem onlyResetLeavesFault : Obligations.OnlyResetLeavesFault := by
  intro s t h hf ht
  cases hr : s.resetReq with
  | none =>
    cases h.symm.trans (step_of_fault (configRefusal_of_step h) hr hf)
    exact absurd hf ht
  | some req =>
    rw [step_of_reset (configRefusal_of_step h) hr] at h
    obtain ⟨_, _, rfl⟩ := serviceReset_next h
    exact ⟨nofun, rfl, rfl, fun i => by simp [State.reset]⟩

end Sys2Proof.Machine
end

-- Proofs: resets
section
/-!
PROOFS. Resets (spec/70_reset_and_hazards.md R190 to R192): when one is served, what it leaves, and that a state which meets
the invariant stops at nothing else (spec/00_scope.md R6, spec/60_exceptions.md R172).
-/

namespace Sys2Proof.Machine

/-! ### When a reset is served -/

theorem serviceReset_of_bus {req : ResetReq} {s : State} {op : BusOp} (hf : s.fsm = .bus op) :
    serviceReset req s = .refused .resetDuringBus := by
  rcases serviceReset_cases req s with ⟨_, _, h⟩ | ⟨hb, _⟩
  · exact h
  · exact absurd hf (hb op)

theorem serviceReset_of_listed {req : ResetReq} {s : State} (hb : ∀ op, s.fsm ≠ .bus op)
    (ha : req.addr.getD defaultAddr ∈ addrList) : serviceReset req s = .next (s.construct req.addr) := by
  rcases serviceReset_cases req s with ⟨op, hf, _⟩ | ⟨_, ⟨_, h⟩ | ⟨hout, _⟩⟩
  · exact absurd hf (hb op)
  · exact h
  · exact absurd ha hout

/-- Only an address that the reset supplies can be unlisted: the default is listed (R190). -/
theorem ResetReq.supplies_of_notListed {req : ResetReq} (ha : req.addr.getD defaultAddr ∉ addrList) :
    ∃ a, req = ⟨some a⟩ ∧ a ∉ addrList := by
  obtain ⟨_ | a⟩ := req
  · exact absurd (by decide) ha
  · exact ⟨a, rfl, ha⟩

/-- Settles O46: the reset is served, and `State.construct` builds the state; HDR and LISTBUF take the model's values. -/
theorem resetSetsEveryRegister : Obligations.ResetSetsEveryRegister := by
  intro s addr hc hr hb ha
  exact ⟨State.reset.hdr, State.reset.listBuf, (step_of_reset hc hr).trans (serviceReset_of_listed hb ha)⟩

/-- Settles O47: BUS refuses the reset; the four states named are the ones other than BUS, where it is served. -/
theorem resetIsRefusedOnlyDuringBus : Obligations.ResetIsRefusedOnlyDuringBus := by
  intro s req hc hr
  refine ⟨fun op hf => (step_of_reset hc hr).trans (serviceReset_of_bus hf), fun hf ha => ?_⟩
  have hb : ∀ op, s.fsm ≠ .bus op := by
    intro op hbus
    simp [hbus] at hf
  exact ⟨s.construct req.addr, (step_of_reset hc hr).trans (serviceReset_of_listed hb ha), rfl, rfl⟩

/-! ### With no reset asked for, the controller goes on -/

/-- A legal header's command runs, and no command stops the machine. -/
theorem launch_outcome_next {s : State} {op : Opcode} (ho : decodeHeader s.hdr = .ok op) :
    ∃ t, (launch s).outcome = .next t := by
  rw [launch_ok ho, Fetched.outcome_run]
  exact exec_next _ _

theorem receive_outcome_next {s : State} {op : Opcode} (ho : decodeHeader s.hdr = .ok op) :
    ∃ t, (receive s.cmdIn s).outcome = .next t := by
  obtain ⟨good, rest, _, _, _, ⟨_, _, h⟩ | ⟨_, _, _, _, _, h⟩ | ⟨_, h⟩⟩ := receive_cases s.cmdIn s rfl <;> rw [h]
  · exact ⟨_, rfl⟩
  · exact ⟨_, rfl⟩
  · exact launch_outcome_next (s := s.takeWords good rest) ho

/-- An illegal header faults, which is a next state (R171); a legal one is latched before its payload or command (R29). -/
theorem takeHeader_outcome_next (h : Word) (rest : List Word) (s : State) :
    ∃ t, (takeHeader h rest s).outcome = .next t := by
  cases ho : decodeHeader h with
  | error e => exact ⟨_, by rw [takeHeader_error ho, Fetched.outcome_done]⟩
  | ok op =>
    by_cases hl : op.format = .l
    · by_cases hz : lenField h = 0
      · rw [takeHeader_empty ho hl hz]
        exact launch_outcome_next ho
      · rw [takeHeader_list ho hl hz]
        exact receive_outcome_next (s := { s with cmdIn := rest, hdr := h, listCnt := 0, fsm := .recv }) ho
    · rw [takeHeader_single ho hl]
      exact launch_outcome_next ho

/-- HDR is read before a header is taken only in RECV, where it holds an accepted one, and in EXEC, which is no state
between steps (R26, R29). -/
theorem State.Inv.fetchByFsm_outcome_next {s : State} (hs : s.Inv) : ∃ t, (fetchByFsm s).outcome = .next t := by
  cases hf : s.fsm with
  | idle =>
    cases hw : s.cmdIn with
    | nil => exact ⟨s, by rw [fetchByFsm_idle_none hf hw, Fetched.outcome_done]⟩
    | cons h rest => exact fetchByFsm_idle hf hw ▸ takeHeader_outcome_next h rest s
  | recv =>
    obtain ⟨op, ho, _, _⟩ := hs.receiving hf
    exact fetchByFsm_recv hf ▸ receive_outcome_next ho
  | exec => exact absurd hf hs.notExec
  | bus op => exact ⟨s.awaitBus op, by rw [fetchByFsm_bus hf, Fetched.outcome_done]⟩
  | fault => exact ⟨s, by rw [fetchByFsm_fault hf, Fetched.outcome_done]⟩

/-- Settles O52: with no reset asked for the controller goes on; a reset is served, or refused for one of its two reasons. -/
theorem onlyResetsAreRefused : Obligations.OnlyResetsAreRefused := by
  intro s hs
  cases hr : s.resetReq with
  | none => exact .inl (step_of_running hs.config hr ▸ hs.fetchByFsm_outcome_next)
  | some req =>
    rw [step_of_reset hs.config hr]
    rcases serviceReset_cases req s with ⟨op, hf, h⟩ | ⟨_, ⟨_, h⟩ | ⟨ha, h⟩⟩
    · exact .inr (.inl ⟨req, op, rfl, hf, h⟩)
    · exact .inl ⟨s.construct req.addr, h⟩
    · obtain ⟨a, rfl, hout⟩ := ResetReq.supplies_of_notListed ha
      exact .inr (.inr ⟨a, rfl, hout, h⟩)

end Sys2Proof.Machine
end
